-- ==== Sys2Proof/Word.lean ====
section
/-! DEFINITION. The word types of the μPD17103 (00_scope.md R4, R5). -/

namespace Sys2Proof

/-- The unit of data memory: four bits, b3..b0 (R4, R5, R62). -/
abbrev Nibble := BitVec 4

/-- One byte of the program memory's "1K bytes" (R1). -/
abbrev Byte := BitVec 8

/-- A program word: one 16-bit instruction, b15..b0 (R5, R61, R100). -/
abbrev ProgWord := BitVec 16

/-- A program address, the width of the program counter (R21). -/
abbrev ProgAddr := BitVec 9

/-- A data memory address: 3-bit row, 4-bit column (R62). -/
abbrev DataAddr := BitVec 7

/-- A general register number: the column address in row 0 (R106). -/
abbrev RegNum := BitVec 4

end Sys2Proof
end

