-- ==== Sys2Proof/Syntax.lean ====
section
/-! DEFINITION. The instructions of the μPD17103: one constructor per row of
spec/opcode_table.json (30_encoding.md R103, R104). Operands are the fields of R105–R109. -/

namespace Sys2Proof

/-- `RM` constructors take a register `r` and a data address `m`, `MI` constructors a data
address `m` and an immediate `n4` (R102). -/
inductive Instr where
  /-- `ADD r, m` (R134) -/
  | addRM (r : RegNum) (m : DataAddr)
  /-- `ADD m, #n4` (R135) -/
  | addMI (m : DataAddr) (n4 : Nibble)
  /-- `ADDC r, m` (R136) -/
  | addcRM (r : RegNum) (m : DataAddr)
  /-- `ADDC m, #n4` (R137) -/
  | addcMI (m : DataAddr) (n4 : Nibble)
  /-- `SUB r, m` (R138) -/
  | subRM (r : RegNum) (m : DataAddr)
  /-- `SUB m, #n4` (R139) -/
  | subMI (m : DataAddr) (n4 : Nibble)
  /-- `SUBC r, m` (R140) -/
  | subcRM (r : RegNum) (m : DataAddr)
  /-- `SUBC m, #n4` (R141) -/
  | subcMI (m : DataAddr) (n4 : Nibble)
  /-- `OR r, m` (R151) -/
  | orRM (r : RegNum) (m : DataAddr)
  /-- `OR m, #n4` (R152) -/
  | orMI (m : DataAddr) (n4 : Nibble)
  /-- `AND r, m` (R153) -/
  | andRM (r : RegNum) (m : DataAddr)
  /-- `AND m, #n4` (R154) -/
  | andMI (m : DataAddr) (n4 : Nibble)
  /-- `XOR r, m` (R155) -/
  | xorRM (r : RegNum) (m : DataAddr)
  /-- `XOR m, #n4` (R156) -/
  | xorMI (m : DataAddr) (n4 : Nibble)
  /-- `SKT m, #n`, `n` a mask (R161, R107) -/
  | skt (m : DataAddr) (n : Nibble)
  /-- `SKF m, #n` (R162) -/
  | skf (m : DataAddr) (n : Nibble)
  /-- `SKE m, #n4` (R164) -/
  | ske (m : DataAddr) (n4 : Nibble)
  /-- `SKNE m, #n4` (R165) -/
  | skne (m : DataAddr) (n4 : Nibble)
  /-- `SKGE m, #n4` (R166) -/
  | skge (m : DataAddr) (n4 : Nibble)
  /-- `SKLT m, #n4` (R167) -/
  | sklt (m : DataAddr) (n4 : Nibble)
  /-- `RORC r` (R180) -/
  | rorc (r : RegNum)
  /-- `LD r, m` (R182) -/
  | ld (r : RegNum) (m : DataAddr)
  /-- `ST m, r` (R183) -/
  | st (m : DataAddr) (r : RegNum)
  /-- `MOV m, #n4` (R184) -/
  | mov (m : DataAddr) (n4 : Nibble)
  /-- `BR addr`, the whole 11-bit operand (R191, R108) -/
  | br (addr : BitVec 11)
  /-- `CALL addr` (R192) -/
  | call (addr : BitVec 11)
  /-- `RET` (R193) -/
  | ret
  /-- `RETSK` (R194) -/
  | retsk
  /-- `STOP s` (R202) -/
  | stop (cond : Nibble)
  /-- `HALT h` (R201) -/
  | halt (cond : Nibble)
  /-- `NOP` (R200) -/
  | nop
deriving DecidableEq, Repr

end Sys2Proof
end

