-- ==== Sys2Proof/Decode.lean ====
section
/-! DEFINITION. Decoding and encoding one 16-bit word (30_encoding.md R100–R112). Decoding
depends on the word alone and is total; a word without an instruction is rejected by name. -/

namespace Sys2Proof

/-- Why a word has no instruction. The step turns either into the model fault
`IllegalInstruction` (R110, R111). -/
inductive DecodeError where
  /-- the 5-bit opcode is one of the six that §10.1 leaves blank (R110) -/
  | unassignedOpcode (op : BitVec 5)
  /-- under opcode 00111 the sub-opcode fields name no instruction (R111) -/
  | unassignedSubcode (fHi : BitVec 3) (fMid : Nibble) (fLo : Nibble)
deriving DecidableEq, Repr

/-- `op`, bits b15..b11 (R101). -/
def opField (w : ProgWord) : BitVec 5 := w.extractLsb' 11 5

/-- `f_hi`, bits b10..b8 (R101). -/
def hiField (w : ProgWord) : BitVec 3 := w.extractLsb' 8 3

/-- `f_mid`, bits b7..b4 (R101). -/
def midField (w : ProgWord) : Nibble := w.extractLsb' 4 4

/-- `f_lo`, bits b3..b0: the operand `r`, `n4`, `n`, `s` or `h` (R101, R106, R107, R109). -/
def loField (w : ProgWord) : Nibble := w.extractLsb' 0 4

/-- Operand `m = {mR, mC}`, bits b10..b4 (R105). -/
def mField (w : ProgWord) : DataAddr := w.extractLsb' 4 7

/-- Operand `addr`, bits b10..b0 (R108). -/
def addrField (w : ProgWord) : BitVec 11 := w.extractLsb' 0 11

/-- The high-order two bits of a BR or CALL operand are 0 (R108, R112 (a)). -/
def branchOperandOk (addr : BitVec 11) : Bool := addr.extractLsb' 9 2 == 0

/-- The high-order three bits of a STOP or HALT operand are 0 (R109, R112 (b)). -/
def standbyOperandOk (cond : Nibble) : Bool := cond.extractLsb' 1 3 == 0

/-- The group of opcode 00111, by `f_hi`, `f_mid` and `f_lo` (R104, R111). -/
def decodeGroup (fHi : BitVec 3) (fMid fLo : Nibble) : Except DecodeError Instr :=
  match fHi, fMid with
  | 0b000#3, 0b0111#4 => .ok (.rorc fLo)
  | 0b000#3, 0b1110#4 => if fLo = 0 then .ok .ret else .error (.unassignedSubcode fHi fMid fLo)
  | 0b001#3, 0b1110#4 => if fLo = 0 then .ok .retsk else .error (.unassignedSubcode fHi fMid fLo)
  | 0b010#3, 0b1111#4 => .ok (.stop fLo)
  | 0b011#3, 0b1111#4 => .ok (.halt fLo)
  | 0b100#3, 0b1111#4 => if fLo = 0 then .ok .nop else .error (.unassignedSubcode fHi fMid fLo)
  | _, _ => .error (.unassignedSubcode fHi fMid fLo)

/-- The instruction of a program word, by the opcode map of R103. -/
def decode (w : ProgWord) : Except DecodeError Instr :=
  match opField w with
  | 0b00000#5 => .ok (.addRM (loField w) (mField w))
  | 0b00001#5 => .ok (.subRM (loField w) (mField w))
  | 0b00010#5 => .ok (.addcRM (loField w) (mField w))
  | 0b00011#5 => .ok (.subcRM (loField w) (mField w))
  | 0b00100#5 => .ok (.andRM (loField w) (mField w))
  | 0b00101#5 => .ok (.xorRM (loField w) (mField w))
  | 0b00110#5 => .ok (.orRM (loField w) (mField w))
  | 0b00111#5 => decodeGroup (hiField w) (midField w) (loField w)
  | 0b01000#5 => .ok (.ld (loField w) (mField w))
  | 0b01001#5 => .ok (.ske (mField w) (loField w))
  | 0b01011#5 => .ok (.skne (mField w) (loField w))
  | 0b01100#5 => .ok (.br (addrField w))
  | 0b10000#5 => .ok (.addMI (mField w) (loField w))
  | 0b10001#5 => .ok (.subMI (mField w) (loField w))
  | 0b10010#5 => .ok (.addcMI (mField w) (loField w))
  | 0b10011#5 => .ok (.subcMI (mField w) (loField w))
  | 0b10100#5 => .ok (.andMI (mField w) (loField w))
  | 0b10101#5 => .ok (.xorMI (mField w) (loField w))
  | 0b10110#5 => .ok (.orMI (mField w) (loField w))
  | 0b11000#5 => .ok (.st (mField w) (loField w))
  | 0b11001#5 => .ok (.skge (mField w) (loField w))
  | 0b11011#5 => .ok (.sklt (mField w) (loField w))
  | 0b11100#5 => .ok (.call (addrField w))
  | 0b11101#5 => .ok (.mov (mField w) (loField w))
  | 0b11110#5 => .ok (.skt (mField w) (loField w))
  | 0b11111#5 => .ok (.skf (mField w) (loField w))
  | op => .error (.unassignedOpcode op)

/-- The bits of an instruction that `nbits` table bits number `w`, as one program word: this
machine's instructions are all 16 bits (R100), a bit above `nbits` is 0. -/
def instrWord (nbits w : Nat) : ProgWord := BitVec.ofNat 16 (w % 2 ^ nbits)

/-- The instruction the decoder reads from a word numbered as spec/opcode_table.json numbers it. -/
def decodeTableWord (nbits w : Nat) : Option Instr := (decode (instrWord nbits w)).toOption

/-- Formats `RM` and `MI`: opcode, data address, low nibble (R102). -/
def encodeM (op : BitVec 5) (m : DataAddr) (lo : Nibble) : ProgWord := op ++ m ++ lo

/-- Format `A`: opcode and the 11-bit address operand (R102, R108). -/
def encodeA (op : BitVec 5) (addr : BitVec 11) : ProgWord := op ++ addr

/-- Format `X`: opcode 00111, the sub-opcode fields, the low nibble (R104). -/
def encodeX (fHi : BitVec 3) (fMid lo : Nibble) : ProgWord := 0b00111#5 ++ fHi ++ fMid ++ lo

/-- The word of an instruction (R103, R104, R116). -/
def encode : Instr → ProgWord
  | .addRM r m => encodeM 0b00000#5 m r
  | .addMI m n4 => encodeM 0b10000#5 m n4
  | .addcRM r m => encodeM 0b00010#5 m r
  | .addcMI m n4 => encodeM 0b10010#5 m n4
  | .subRM r m => encodeM 0b00001#5 m r
  | .subMI m n4 => encodeM 0b10001#5 m n4
  | .subcRM r m => encodeM 0b00011#5 m r
  | .subcMI m n4 => encodeM 0b10011#5 m n4
  | .orRM r m => encodeM 0b00110#5 m r
  | .orMI m n4 => encodeM 0b10110#5 m n4
  | .andRM r m => encodeM 0b00100#5 m r
  | .andMI m n4 => encodeM 0b10100#5 m n4
  | .xorRM r m => encodeM 0b00101#5 m r
  | .xorMI m n4 => encodeM 0b10101#5 m n4
  | .skt m n => encodeM 0b11110#5 m n
  | .skf m n => encodeM 0b11111#5 m n
  | .ske m n4 => encodeM 0b01001#5 m n4
  | .skne m n4 => encodeM 0b01011#5 m n4
  | .skge m n4 => encodeM 0b11001#5 m n4
  | .sklt m n4 => encodeM 0b11011#5 m n4
  | .rorc r => encodeX 0b000#3 0b0111#4 r
  | .ld r m => encodeM 0b01000#5 m r
  | .st m r => encodeM 0b11000#5 m r
  | .mov m n4 => encodeM 0b11101#5 m n4
  | .br addr => encodeA 0b01100#5 addr
  | .call addr => encodeA 0b11100#5 addr
  | .ret => encodeX 0b000#3 0b1110#4 0
  | .retsk => encodeX 0b001#3 0b1110#4 0
  | .stop cond => encodeX 0b010#3 0b1111#4 cond
  | .halt cond => encodeX 0b011#3 0b1111#4 cond
  | .nop => encodeX 0b100#3 0b1111#4 0

end Sys2Proof
end

