-- ==== Sys2Proof/Config.lean ====
section
/-! DEFINITION. The pins, the parameters of the chip (00_scope.md R4) and the free values the
spec leaves open (93_implementation_defined.md U1, U2, U11, U13, U15). -/

namespace Sys2Proof

/-- The pins a rule reads: the eleven port pins and RESET (60_exceptions.md R240, R241). -/
inductive Pin where
  | p0b0 | p0b1 | p0b2
  | p0c0 | p0c1 | p0c2 | p0c3
  | p0d0 | p0d1 | p0d2 | p0d3
  | reset
deriving DecidableEq, Repr

/-- What one side contributes to a pin: nothing, a low level or a high level (R244). -/
inductive Drive where
  | hiZ | low | high
deriving DecidableEq, Repr

/-- `UNMAPPED_POLICY` (92_eei_decisions.md D1): what an access to 10H–70H or 74H–7DH does. -/
inductive UnmappedPolicy where
  /-- the spec's default: the model fault `UnimplementedDataAddress` -/
  | fault
  /-- a read gives any nibble, a write has no effect -/
  | any
deriving DecidableEq, Repr

/-- `RAM_RESET_POLICY` (D12, 10_state.md R45): what reading a nibble that is undefined since the last
reset does. -/
inductive RamResetPolicy where
  /-- the spec's default: the nibble holds an arbitrary fixed value -/
  | any
  /-- the model fault `UndefinedRead` -/
  | faultOnRead
deriving DecidableEq, Repr

/-- `SKT_CMP_ORDER` (D8): whether SKT and SKF read their operand before or after resetting CMP. -/
inductive SktCmpOrder where
  | readFirst | resetFirst
deriving DecidableEq, Repr

/-- A mask option: with or without the built-in pull-up resistor (46_assembler_macros.md R212). -/
inductive MaskOption where
  /-- `P0BPLUP`, `RESPLUP` -/
  | pullUp
  /-- `OPEN` -/
  | noPullUp
deriving DecidableEq, Repr

/-- The parameters fixed for one chip (00_scope.md R4, 10_state.md R41). No step changes them. -/
structure Chip where
  /-- `UNMAPPED_POLICY` -/
  unmapped : UnmappedPolicy
  /-- `RAM_RESET_POLICY` (70_reset_and_hazards.md R275) -/
  ramReset : RamResetPolicy
  /-- `PIN_FOLLOWS_LATCH` (60_exceptions.md R246) -/
  pinFollowsLatch : Bool
  /-- `SKT_CMP_ORDER` (42_test_compare.md R168) -/
  sktCmpOrder : SktCmpOrder
  /-- `OPT_P0B2` -/
  optP0B2 : MaskOption
  /-- `OPT_P0B1` -/
  optP0B1 : MaskOption
  /-- `OPT_P0B0` -/
  optP0B0 : MaskOption
  /-- `OPT_RESET` -/
  optReset : MaskOption
deriving DecidableEq, Repr

/-- The policies at the spec's defaults (92_eei_decisions.md, "Open parameters in one place") and
the mask options of the source's example (46_assembler_macros.md R214). DESIGN CHOICE for the
mask options (assumption 11), unsafe: a chip ordered with other options reads undriven pins
otherwise; statements about every state quantify over them. -/
def Chip.default : Chip where
  unmapped := .fault
  ramReset := .any
  pinFollowsLatch := true
  sktCmpOrder := .readFirst
  optP0B2 := .pullUp
  optP0B1 := .noPullUp
  optP0B0 := .noPullUp
  optReset := .pullUp

/-- FREE VALUE: the sixteen nibbles of general data memory after a reset of kind (A) at tick `t`
(10_state.md R42, U1; assumption 8). -/
opaque Config.undefinedRam : Nat → Vector Nibble 16

/-- FREE VALUE: the port 0B output latch after a reset of kind (A) at tick `t` (R42, U2). -/
opaque Config.undefinedLatch0B : Nat → BitVec 3

/-- FREE VALUE: the port 0C output latch after a reset of kind (A) at tick `t` (R42, U2). -/
opaque Config.undefinedLatch0C : Nat → Nibble

/-- FREE VALUE: the port 0D output latch after a reset of kind (A) at tick `t` (R42, U2). -/
opaque Config.undefinedLatch0D : Nat → Nibble

/-- FREE VALUE: the address stack register after a reset at tick `t` (R43, U13). -/
opaque Config.unspecifiedAsr : Nat → ProgAddr

/-- FREE VALUE: what a read of an unmapped address gives at tick `t` under
`UNMAPPED_POLICY = any` (20_memory.md R66, U11; assumption 12). -/
opaque Config.unmappedNibble : Nat → DataAddr → Nibble

/-- FREE VALUE: the level at tick `t` of a pin that nothing decides (60_exceptions.md R245, U15;
assumption 10). -/
opaque Config.floatingLevel : Nat → Pin → Bool

end Sys2Proof
end

