-- ==== Sys2Proof/Machine/State.lean ====
section
/-! DEFINITION. The state of the machine (10_state.md R20), its reset value (R42, R43) and the
reasons a step can stop (60_exceptions.md R231). -/

namespace Sys2Proof.Machine

/-- The run mode of the chip (10_state.md R39). -/
inductive Mode where
  /-- executing instructions -/
  | operating
  /-- after HALT; the argument is bit 0 of its operand (true: P0B0 releases) -/
  | halt (pinReleases : Bool)
  /-- after STOP; the argument is bit 0 of its operand (true: P0B1 releases) -/
  | stop (pinReleases : Bool)
  /-- RESET is low, or the settling wait after it has not ended -/
  | resetHeld
deriving DecidableEq, Repr

/-- One sample of what the environment applies to every pin (70_reset_and_hazards.md R291 (a), (b)).
`hiZ` is a pin the environment does not drive. -/
structure EnvSample where
  reset : Drive
  p0b0 : Drive
  p0b1 : Drive
  p0b2 : Drive
  p0c0 : Drive
  p0c1 : Drive
  p0c2 : Drive
  p0c3 : Drive
  p0d0 : Drive
  p0d1 : Drive
  p0d2 : Drive
  p0d3 : Drive
deriving DecidableEq, Repr

/-- The environment drives nothing. -/
def EnvSample.released : EnvSample :=
  ⟨.hiZ, .hiZ, .hiZ, .hiZ, .hiZ, .hiZ, .hiZ, .hiZ, .hiZ, .hiZ, .hiZ, .hiZ⟩

/-- Program memory as byte cells: program word `a` is the cells `2a` (low byte) and `2a + 1`
(high byte). DESIGN CHOICE (assumption 1), safe: no instruction sees the bytes of a word. -/
abbrev Memory := List Host.Cell

/-- What a data-memory address holds (20_memory.md R63). -/
inductive DataLoc where
  /-- 00H–0FH: general data memory, which is general register `i` -/
  | ram (i : Fin 16)
  /-- 71H -/
  | port0B
  /-- 72H -/
  | port0C
  /-- 73H -/
  | port0D
  /-- 7EH -/
  | bcdNibble
  /-- 7FH -/
  | psw
  /-- 10H–70H and 74H–7DH -/
  | unmapped
deriving DecidableEq, Repr

/-- The whole machine. The first group is the state of R20; then the parameters and inputs of
R41; then the model's own two counters. -/
structure State where
  /-- program counter (R21) -/
  pc : ProgAddr
  /-- the address stack register ASR (R24) -/
  asr : ProgAddr
  /-- the number of return addresses held, standing for SP (R25) -/
  depth : Fin 2
  /-- general data memory 00H–0FH = general registers (R26, R27) -/
  ram : Vector Nibble 16
  /-- per nibble of `ram`: written since the last reset of kind (A), the defined-bit of
  70_reset_and_hazards.md R275. Only `RAM_RESET_POLICY = fault_on_read` looks at it -/
  defined : Vector Bool 16
  /-- BCD flag (R33) -/
  bcd : Bool
  /-- CMP flag (R32) -/
  cmp : Bool
  /-- CY flag (R31) -/
  cy : Bool
  /-- Z flag (R30) -/
  z : Bool
  /-- port 0B output latch, bits 2..0 (R37) -/
  latch0B : BitVec 3
  /-- port 0C output latch (R37) -/
  latch0C : Nibble
  /-- port 0D output latch (R37) -/
  latch0D : Nibble
  /-- port 0B is in output mode (R38) -/
  out0B : Bool
  /-- port 0C is in output mode (R38) -/
  out0C : Bool
  /-- port 0D is in output mode (R38) -/
  out0D : Bool
  /-- run mode (R39) -/
  mode : Mode
  /-- the program in mask ROM (20_memory.md R61); no step changes it -/
  rom : Memory
  /-- policies and mask options (R41); no step changes them -/
  chip : Chip
  /-- the environment's coming samples, one per step; past the end it drives nothing
  (assumption 9) -/
  inputs : List EnvSample
  /-- steps taken: the argument of every free value (the model's own, assumption 9) -/
  ticks : Nat
  /-- instruction cycles executed (70_reset_and_hazards.md R289; no rule reads it, assumption 17) -/
  cycles : Nat
deriving DecidableEq, Repr

/-- The model faults of R231: the spec's own stops, not hardware traps. Each carries the pc of the
instruction and the info R231 names; the state is as it was before the instruction (assumption 19). -/
inductive Fault where
  /-- Raised by the step when the word at `pc` is an unassigned encoding (R110, R111). Safe: the
  model stops where the source gives no behaviour. -/
  | illegalInstruction (pc : ProgAddr) (word : ProgWord)
  /-- Raised by BR and CALL when operand bits 10..9 are not 00 (R112 (a)). Safe. -/
  | badBranchOperand (pc : ProgAddr) (word : ProgWord)
  /-- Raised by STOP and HALT when operand bits 3..1 are not 000 (R112 (b)). Safe. -/
  | badStandbyOperand (pc : ProgAddr) (word : ProgWord)
  /-- Raised by every instruction with an `m` operand in 10H–70H or 74H–7DH, under
  `UNMAPPED_POLICY = fault` (20_memory.md R66). Safe. -/
  | unimplementedDataAddress (pc : ProgAddr) (a : DataAddr)
  /-- Raised by every instruction that reads a nibble of general data memory not written since the
  last reset of kind (A), under `RAM_RESET_POLICY = fault_on_read` (70_reset_and_hazards.md R275).
  Safe: the default `any` goes on with an arbitrary value (assumption 13). -/
  | undefinedRead (pc : ProgAddr) (a : DataAddr)
  /-- Raised by CALL when the one stack level is in use (R197). Safe. -/
  | stackOverflow (pc : ProgAddr)
  /-- Raised by RET and RETSK when no return address is held (R197). Safe. -/
  | stackUnderflow (pc : ProgAddr)
  /-- Raised by the fetch when no cell lists the word at `pc`: the model has not been given that
  part of the mask ROM. The model's own (assumption 2). Safe: every real ROM lists all 512 words. -/
  | romNotProgrammed (pc : ProgAddr)
deriving DecidableEq, Repr

/-- The reasons an instruction is not run at all. -/
inductive Refusal where
  /-- An arm of `exec` without a meaning; none is left. Safe. -/
  | notModelled (mnemonic : String)
deriving DecidableEq, Repr

/-- The machine right after a reset of kind (A), released (R43, 70_reset_and_hazards.md R274):
pc 000H, PSWORD 0, all ports input, depth 0, operating, no nibble of data memory defined (R275).
`ram`, the latches and `asr` are DESIGN CHOICES (assumptions 4, 5, 6), unsafe: the spec leaves them
undefined. -/
def State.reset : State where
  pc := 0
  asr := 0
  depth := 0
  ram := Vector.replicate 16 0
  defined := Vector.replicate 16 false
  bcd := false
  cmp := false
  cy := false
  z := false
  latch0B := 0
  latch0C := 0
  latch0D := 0
  out0B := false
  out0C := false
  out0D := false
  mode := .operating
  rom := []
  chip := Chip.default
  inputs := []
  ticks := 0
  cycles := 0

end Sys2Proof.Machine
end

