-- ==== Sys2Proof/Machine/Ops.lean ====
section
/-! DEFINITION. The named operations every meaning goes through: program memory, pins, data
memory, the program counter, reset and the standby modes. -/

namespace Sys2Proof.Machine

/-- What a meaning answers. -/
abbrev Result := Host.Outcome State Fault Refusal

/-! ### Program memory (20_memory.md R61) -/

/-- The byte at a byte address; none where no cell lists it (assumption 2). -/
def Memory.read (a : Nat) : Memory → Option Byte
  | [] => none
  | (k, v) :: rest => if a = k then some v else Memory.read a rest

/-- Stores one byte, keeping the cells in rising order. -/
def Memory.write (a : Nat) (b : Byte) : Memory → Memory
  | [] => [(a, b)]
  | (k, v) :: rest =>
    if a < k then (a, b) :: (k, v) :: rest
    else if a = k then (k, b) :: rest
    else (k, v) :: Memory.write a b rest

/-- Every address listed in `m` is above `lo` and below 400H, and the addresses rise strictly. -/
def Memory.risesFrom (lo : Nat) : Memory → Bool
  | [] => true
  | (k, _) :: rest => decide (lo ≤ k) && decide (k < 1024) && Memory.risesFrom (k + 1) rest

/-- The canonical form of program memory: addresses strictly rising, inside the 1K bytes of R1.
An unlisted address holds no value, so no entry can repeat it. -/
def Memory.wf (m : Memory) : Bool := Memory.risesFrom 0 m

/-- `ROM[a]` (R7, R61), if both of its bytes are listed. -/
def programWord (m : Memory) (a : ProgAddr) : Option ProgWord :=
  match Memory.read (2 * a.toNat) m, Memory.read (2 * a.toNat + 1) m with
  | some lo, some hi => some (hi ++ lo)
  | _, _ => none

/-- Places a program word (no instruction does this, R80). -/
def storeProgramWord (m : Memory) (a : ProgAddr) (w : ProgWord) : Memory :=
  Memory.write (2 * a.toNat + 1) (w.extractLsb' 8 8)
    (Memory.write (2 * a.toNat) (w.extractLsb' 0 8) m)

/-- The instruction at the program counter, or the fault of fetching or decoding it
(70_reset_and_hazards.md R290 line 6; R110, R111). -/
def fetchInstr (s : State) : Except Fault Instr :=
  match programWord s.rom s.pc with
  | none => .error (.romNotProgrammed s.pc)
  | some w =>
    match decode w with
    | .ok i => .ok i
    | .error _ => .error (.illegalInstruction s.pc w)

/-! ### Pins (60_exceptions.md R243–R247) -/

/-- What the environment applies during this step (assumption 9). -/
def currentSample (s : State) : EnvSample := s.inputs.headD EnvSample.released

/-- What a sample applies to one pin. -/
def EnvSample.drive (e : EnvSample) : Pin → Drive
  | .reset => e.reset
  | .p0b0 => e.p0b0
  | .p0b1 => e.p0b1
  | .p0b2 => e.p0b2
  | .p0c0 => e.p0c0
  | .p0c1 => e.p0c1
  | .p0c2 => e.p0c2
  | .p0c3 => e.p0c3
  | .p0d0 => e.p0d0
  | .p0d1 => e.p0d1
  | .p0d2 => e.p0d2
  | .p0d3 => e.p0d3

/-- N-ch open drain: a latch bit 1 releases the pin, a 0 drives it low (R244). -/
def openDrainDrive (out latchBit : Bool) : Drive :=
  if out && !latchBit then .low else .hiZ

/-- CMOS push-pull: the latch bit is driven (R244). -/
def pushPullDrive (out latchBit : Bool) : Drive :=
  if out then (if latchBit then .high else .low) else .hiZ

/-- `Drive(p, i)`: the chip's own contribution to a pin (R244). RESET is an input only (R241). -/
def chipDrive (s : State) : Pin → Drive
  | .p0b0 => openDrainDrive s.out0B (s.latch0B.getLsbD 0)
  | .p0b1 => openDrainDrive s.out0B (s.latch0B.getLsbD 1)
  | .p0b2 => openDrainDrive s.out0B (s.latch0B.getLsbD 2)
  | .p0c0 => pushPullDrive s.out0C (s.latch0C.getLsbD 0)
  | .p0c1 => pushPullDrive s.out0C (s.latch0C.getLsbD 1)
  | .p0c2 => pushPullDrive s.out0C (s.latch0C.getLsbD 2)
  | .p0c3 => pushPullDrive s.out0C (s.latch0C.getLsbD 3)
  | .p0d0 => pushPullDrive s.out0D (s.latch0D.getLsbD 0)
  | .p0d1 => pushPullDrive s.out0D (s.latch0D.getLsbD 1)
  | .p0d2 => pushPullDrive s.out0D (s.latch0D.getLsbD 2)
  | .p0d3 => pushPullDrive s.out0D (s.latch0D.getLsbD 3)
  | .reset => .hiZ

/-- The pin has a built-in pull-up resistor: only port 0B and RESET can (46_assembler_macros.md
R212, R215). -/
def hasPullUp (c : Chip) : Pin → Bool
  | .p0b0 => c.optP0B0 == .pullUp
  | .p0b1 => c.optP0B1 == .pullUp
  | .p0b2 => c.optP0B2 == .pullUp
  | .reset => c.optReset == .pullUp
  | .p0c0 => false
  | .p0c1 => false
  | .p0c2 => false
  | .p0c3 => false
  | .p0d0 => false
  | .p0d1 => false
  | .p0d2 => false
  | .p0d3 => false

/-- The level of a pin the chip does not drive: the environment's; if it drives nothing either, 1
with a pull-up, else a free value (R245 (a), U15). -/
def undrivenLevel (s : State) (p : Pin) : Bool :=
  match (currentSample s).drive p with
  | .low => false
  | .high => true
  | .hiZ => if hasPullUp s.chip p then true else Config.floatingLevel s.ticks p

/-- The level of a port pin when the environment supplies every level
(`PIN_FOLLOWS_LATCH = false`, R246). -/
def suppliedLevel (s : State) (p : Pin) : Bool :=
  match (currentSample s).drive p with
  | .low => false
  | .high => true
  | .hiZ => Config.floatingLevel s.ticks p

/-- `Pin(p, i)`: the level an instruction or the standby logic samples (R243, R245, R246). -/
def pinLevel (s : State) (p : Pin) : Bool :=
  if s.chip.pinFollowsLatch then
    match chipDrive s p with
    | .low => false
    | .high => true
    | .hiZ => undrivenLevel s p
  else suppliedLevel s p

/-- The level of the RESET pin, which the chip never drives (R241, R215). -/
def resetLevel (s : State) : Bool := undrivenLevel s .reset

/-! ### Data memory (20_memory.md R63–R71) -/

/-- Four bits, bit 3 first. -/
def nibbleOf (b3 b2 b1 b0 : Bool) : Nibble :=
  BitVec.ofBool b3 ++ BitVec.ofBool b2 ++ BitVec.ofBool b1 ++ BitVec.ofBool b0

/-- The data memory map (R63). -/
def locate (a : DataAddr) : DataLoc :=
  if h : a.toNat < 16 then .ram ⟨a.toNat, h⟩
  else if a = 0x71#7 then .port0B
  else if a = 0x72#7 then .port0C
  else if a = 0x73#7 then .port0D
  else if a = 0x7E#7 then .bcdNibble
  else if a = 0x7F#7 then .psw
  else .unmapped

/-- An access to `a` is carried out: the address is mapped, or `UNMAPPED_POLICY = any` (R66). -/
def accessible (s : State) (a : DataAddr) : Bool :=
  locate a != .unmapped || s.chip.unmapped == .any

/-- `DataRead(a)` (R64). A read changes no state. Under `UNMAPPED_POLICY = any` an unmapped
address gives a free value; under `fault` no meaning gets here for one (`checked`). -/
def dataRead (s : State) (a : DataAddr) : Nibble :=
  match locate a with
  | .ram i => s.ram[i]
  | .port0B => nibbleOf false (pinLevel s .p0b2) (pinLevel s .p0b1) (pinLevel s .p0b0)
  | .port0C =>
    nibbleOf (pinLevel s .p0c3) (pinLevel s .p0c2) (pinLevel s .p0c1) (pinLevel s .p0c0)
  | .port0D =>
    nibbleOf (pinLevel s .p0d3) (pinLevel s .p0d2) (pinLevel s .p0d1) (pinLevel s .p0d0)
  | .bcdNibble => nibbleOf false false false s.bcd
  | .psw => nibbleOf s.cmp s.cy s.z false
  | .unmapped => Config.unmappedNibble s.ticks a

/-- `DataWrite(a, v)` (R65). A RAM nibble is defined from then on (R275). A port write sets the latch
and output mode (R68); the always-zero bits are discarded (R34, R69). -/
def dataWrite (s : State) (a : DataAddr) (v : Nibble) : State :=
  match locate a with
  | .ram i => { s with ram := s.ram.set i v, defined := s.defined.set i true }
  | .port0B => { s with latch0B := v.extractLsb' 0 3, out0B := true }
  | .port0C => { s with latch0C := v, out0C := true }
  | .port0D => { s with latch0D := v, out0D := true }
  | .bcdNibble => { s with bcd := v.getLsbD 0 }
  | .psw => { s with cmp := v.getLsbD 3, cy := v.getLsbD 2, z := v.getLsbD 1 }
  | .unmapped => s

/-- Runs the rest of an instruction with operand `m`, or faults `UnimplementedDataAddress` with
nothing changed (R66, R231). -/
def checked (s : State) (m : DataAddr) (rest : Result) : Result :=
  if accessible s m then rest else .fault (.unimplementedDataAddress s.pc m)

/-- A read of `a` gives a value: under `RAM_RESET_POLICY = fault_on_read` a nibble of general data
memory must have been written since the last reset of kind (A) (70_reset_and_hazards.md R275). -/
def readable (s : State) (a : DataAddr) : Bool :=
  match locate a with
  | .ram i => s.chip.ramReset == .any || s.defined[i]
  | .port0B => true
  | .port0C => true
  | .port0D => true
  | .bcdNibble => true
  | .psw => true
  | .unmapped => true

/-- Runs the rest of an instruction that reads `a`, or faults `UndefinedRead` with nothing changed
(R231, R275). -/
def reading (s : State) (a : DataAddr) (rest : Result) : Result :=
  if readable s a then rest else .fault (.undefinedRead s.pc a)

/-- General register `r` is the data-memory cell at row 0, column `r` (R27, R106). -/
def regAddr (r : RegNum) : DataAddr := 0b000#3 ++ r

/-! ### Program counter, stack, cycles -/

/-- After an instruction that does not jump: pc + 1 modulo 512 (10_state.md R22), one cycle
(R285). -/
def advancePc (s : State) : State := { s with pc := s.pc + 1, cycles := s.cycles + 1 }

/-- After an instruction that loads the pc (R190). -/
def jumpTo (s : State) (a : ProgAddr) : State := { s with pc := a, cycles := s.cycles + 1 }

/-- After a skip instruction: if the condition holds the next word is a NOP, whatever its bits,
so pc + 2 and one cycle more (42_test_compare.md R160; assumption 15). -/
def skipIf (s : State) (cond : Bool) : State :=
  if cond then advancePc (advancePc s) else advancePc s

/-! ### Standby modes and reset -/

/-- One step in a standby mode with RESET high: nothing but the release by pin of `halt true`
(P0B0) and `stop true` (P0B1) (60_exceptions.md R257, R260, R261, R262). -/
def standbyStep (s : State) : State :=
  match s.mode with
  | .halt true => if pinLevel s .p0b0 then { s with mode := .operating } else s
  | .stop true => if pinLevel s .p0b1 then { s with mode := .operating } else s
  | .halt false => s
  | .stop false => s
  | .operating => s
  | .resetHeld => s

/-- What both kinds of reset and `STOP 0000B` set: pc 000H, PSWORD 0, all ports input, stack
empty (R43, R258). -/
def initialise (s : State) : State :=
  { s with
    pc := 0, bcd := false, cmp := false, cy := false, z := false,
    out0B := false, out0C := false, out0D := false, depth := 0 }

/-- Column (A) of Table 8-1: data memory and output latches are undefined, as free values, and no
nibble is defined (R42, R44, R275; assumptions 8, 13). -/
def undefineData (s : State) : State :=
  { s with
    ram := Config.undefinedRam s.ticks
    defined := Vector.replicate 16 false
    latch0B := Config.undefinedLatch0B s.ticks
    latch0C := Config.undefinedLatch0C s.ticks
    latch0D := Config.undefinedLatch0D s.ticks }

/-- The state while RESET is held: initialised, ASR unspecified (R43), mode `resetHeld` (R270). -/
def holdReset (s : State) : State :=
  { initialise s with asr := Config.unspecifiedAsr s.ticks, mode := .resetHeld }

/-- A step with RESET low (R290 line 1): kind (A) out of operating mode, kind (B) out of a standby
mode (R42, R259, R272), and nothing more once the reset is held. Reset is the one event that takes
control from a program (R234); the hardware has no exception entry or return (R230, R236, R237). -/
def takeReset (s : State) : State :=
  match s.mode with
  | .operating => holdReset (undefineData s)
  | .halt _ => holdReset s
  | .stop _ => holdReset s
  | .resetHeld => s

/-! ### What a step does around an instruction -/

/-- The end of a step: the next sample becomes current, the tick counter goes on (assumption 9). -/
def nextSample (s : State) : State := { s with inputs := s.inputs.tail, ticks := s.ticks + 1 }

/-- `nextSample` on the next state of an instruction; a fault or a refusal is passed on. -/
def endStep (r : Result) : Result :=
  match r with
  | .next s => .next (nextSample s)
  | .fault f => .fault f
  | .refused f => .refused f

/-- The inputs with RESET high in the current sample: unchanged where it already reads high. -/
def inputsOutOfReset (s : State) : List EnvSample :=
  if resetLevel s then s.inputs
  else { currentSample s with reset := .high } :: s.inputs.tail

end Sys2Proof.Machine
end

