-- ==== Sys2Proof/Machine/Operands.lean ====
section
/-! DEFINITION. The operand forms (30_encoding.md R105–R109). -/

namespace Sys2Proof.Machine

/-- The datum a register operand names: `R[r]` (R106). -/
def regRead (s : State) (r : RegNum) : Nibble := dataRead s (regAddr r)

/-- Writes general register `r` (R7, R27). -/
def regWrite (s : State) (r : RegNum) (v : Nibble) : State := dataWrite s (regAddr r) v

/-- Runs the rest of an instruction that reads its operand `m`; the address check comes first
(60_exceptions.md R235 (c)). -/
def operandM (s : State) (m : DataAddr) (rest : Result) : Result :=
  checked s m (reading s m rest)

/-- Runs the rest of an instruction that reads `r` and then `m`, the order of its pseudocode; the
check of address `m` comes first (R235 (c); assumption 13). -/
def operandRM (s : State) (r : RegNum) (m : DataAddr) (rest : Result) : Result :=
  checked s m (reading s (regAddr r) (reading s m rest))

/-- The 9-bit target of a BR or CALL operand: `addr[8:0]` (R108). -/
def branchTarget (addr : BitVec 11) : ProgAddr := addr.extractLsb' 0 9

/-- Bit 0 of a STOP or HALT operand, the release condition X (R109). -/
def releaseBit (cond : Nibble) : Bool := cond.getLsbD 0

/-- The operand nibble of SKT and SKF, read before or after CMP is reset (42_test_compare.md
R168, `SKT_CMP_ORDER`). -/
def testOperand (s : State) (m : DataAddr) : Nibble :=
  match s.chip.sktCmpOrder with
  | .readFirst => dataRead s m
  | .resetFirst => dataRead { s with cmp := false } m

end Sys2Proof.Machine
end

