-- ==== Sys2Proof/Machine/Flags.lean ====
section
/-! DEFINITION. The ALU: binary and decimal results, the flags and the store of an arithmetic
instruction (40_arithmetic.md R130–R133). -/

namespace Sys2Proof.Machine

/-- Addition or subtraction (R130). -/
inductive ArithOp where
  | add | sub
deriving DecidableEq, Repr

/-- The exact integer result `t`: −16..31 (R130). -/
def exactResult (op : ArithOp) (a b : Nibble) (c : Bool) : Int :=
  match op with
  | .add => (a.toNat : Int) + b.toNat + c.toNat
  | .sub => (a.toNat : Int) - b.toNat - c.toNat

/-- `ArithBin`: the 5-bit value `u = t mod 32`, carry or borrow above the result (R130). -/
def arithBin (op : ArithOp) (a b : Nibble) (c : Bool) : BitVec 5 :=
  BitVec.ofInt 5 (exactResult op a b c)

/-- Table 5-2, addition, `u` = 0..31: (CY, result) (R131). -/
def bcdAddTable : List (Bool × Nibble) :=
  [(false, 0x0), (false, 0x1), (false, 0x2), (false, 0x3), (false, 0x4), (false, 0x5),
   (false, 0x6), (false, 0x7), (false, 0x8), (false, 0x9),
   (true, 0x0), (true, 0x1), (true, 0x2), (true, 0x3), (true, 0x4), (true, 0x5)]
  ++
  [(true, 0x6), (true, 0x7), (true, 0x8), (true, 0x9),
   (true, 0xE), (true, 0xF), (true, 0xC), (true, 0xD), (true, 0xE), (true, 0xF),
   (true, 0xC), (true, 0xD), (true, 0xA), (true, 0xB), (true, 0xC), (true, 0xD)]

/-- Table 5-2, subtraction, `u` = 0..31, that is `t` = 0..15 and then −16..−1 (R131). -/
def bcdSubTable : List (Bool × Nibble) :=
  [(false, 0x0), (false, 0x1), (false, 0x2), (false, 0x3), (false, 0x4), (false, 0x5),
   (false, 0x6), (false, 0x7), (false, 0x8), (false, 0x9),
   (true, 0xC), (true, 0xD), (true, 0xE), (true, 0xF), (true, 0xC), (true, 0xD)]
  ++
  [(true, 0xE), (true, 0xF), (true, 0xC), (true, 0xD), (true, 0xE), (true, 0xF),
   (true, 0x0), (true, 0x1), (true, 0x2), (true, 0x3), (true, 0x4), (true, 0x5),
   (true, 0x6), (true, 0x7), (true, 0x8), (true, 0x9)]

/-- The decimal conversion circuit (R131). The tables list all 32 inputs; the default is never
used. -/
def decimalConvert (op : ArithOp) (u : BitVec 5) : Bool × Nibble :=
  match op with
  | .add => bcdAddTable.getD u.toNat (true, 0)
  | .sub => bcdSubTable.getD u.toNat (true, 0)

/-- The pair (CY, result): binary for BCD = 0, Table 5-2 for BCD = 1 (R130, R131, R132). -/
def arithResult (op : ArithOp) (decimal : Bool) (a b : Nibble) (c : Bool) : Bool × Nibble :=
  let u := arithBin op a b c
  if decimal then decimalConvert op u else (u.getLsbD 4, u.extractLsb' 0 4)

/-- The new Z: with CMP = 0 whether the result is 0000B; with CMP = 1 unchanged on a zero result,
else 0 (R132, Table 4-1). -/
def arithZ (s : State) (res : Nibble) : Bool :=
  if s.cmp then (if res = 0 then s.z else false) else decide (res = 0)

/-- `ArithCommit(d, cy, res)`: CY, then Z, then the store if CMP was 0; the store comes last, so a
destination in PSWORD receives the stored result (R132, R133). -/
def arithCommit (s : State) (d : DataAddr) (r : Bool × Nibble) : State :=
  let flagged := { s with cy := r.1, z := arithZ s r.2 }
  if s.cmp then flagged else dataWrite flagged d r.2

/-- One arithmetic instruction on operands already read (R36): result, commit, pc + 1. -/
def arith (op : ArithOp) (s : State) (d : DataAddr) (a b : Nibble) (c : Bool) : Result :=
  .next (advancePc (arithCommit s d (arithResult op s.bcd a b c)))

end Sys2Proof.Machine
end

