-- ==== Sys2Proof/Machine/Arithmetic.lean ====
section
/-! DEFINITION. ADD, ADDC, SUB, SUBC (40_arithmetic.md R134–R141). -/

namespace Sys2Proof.Machine

/-- `ADD r, m` (R134). -/
def execAddRM (r : RegNum) (m : DataAddr) (s : State) : Result :=
  operandRM s r m (arith .add s (regAddr r) (regRead s r) (dataRead s m) false)

/-- `ADD m, #n4` (R135). -/
def execAddMI (m : DataAddr) (n4 : Nibble) (s : State) : Result :=
  operandM s m (arith .add s m (dataRead s m) n4 false)

/-- `ADDC r, m` (R136). -/
def execAddcRM (r : RegNum) (m : DataAddr) (s : State) : Result :=
  operandRM s r m (arith .add s (regAddr r) (regRead s r) (dataRead s m) s.cy)

/-- `ADDC m, #n4` (R137). -/
def execAddcMI (m : DataAddr) (n4 : Nibble) (s : State) : Result :=
  operandM s m (arith .add s m (dataRead s m) n4 s.cy)

/-- `SUB r, m` (R138). -/
def execSubRM (r : RegNum) (m : DataAddr) (s : State) : Result :=
  operandRM s r m (arith .sub s (regAddr r) (regRead s r) (dataRead s m) false)

/-- `SUB m, #n4` (R139). -/
def execSubMI (m : DataAddr) (n4 : Nibble) (s : State) : Result :=
  operandM s m (arith .sub s m (dataRead s m) n4 false)

/-- `SUBC r, m` (R140). -/
def execSubcRM (r : RegNum) (m : DataAddr) (s : State) : Result :=
  operandRM s r m (arith .sub s (regAddr r) (regRead s r) (dataRead s m) s.cy)

/-- `SUBC m, #n4` (R141). -/
def execSubcMI (m : DataAddr) (n4 : Nibble) (s : State) : Result :=
  operandM s m (arith .sub s m (dataRead s m) n4 s.cy)

end Sys2Proof.Machine
end

