-- ==== Sys2Proof/Machine/Branch.lean ====
section
/-! DEFINITION. BR, CALL, RET, RETSK (44_branch_subroutine.md R190–R198). -/

namespace Sys2Proof.Machine

/-- `BR addr` (R191). -/
def execBr (addr : BitVec 11) (s : State) : Result :=
  if branchOperandOk addr then .next (jumpTo s (branchTarget addr))
  else .fault (.badBranchOperand s.pc (encode (.br addr)))

/-- `CALL addr`: saves the address of the word after it (R192); operand fault before stack fault
(R235 (c)). -/
def execCall (addr : BitVec 11) (s : State) : Result :=
  if branchOperandOk addr then
    if s.depth = 1 then .fault (.stackOverflow s.pc)
    else .next (jumpTo { s with asr := s.pc + 1, depth := 1 } (branchTarget addr))
  else .fault (.badBranchOperand s.pc (encode (.call addr)))

/-- `RET` (R193). -/
def execRet (s : State) : Result :=
  if s.depth = 0 then .fault (.stackUnderflow s.pc)
  else .next (jumpTo { s with depth := 0 } s.asr)

/-- `RETSK`: the word at the return address is executed as a NOP (R194, R160). -/
def execRetsk (s : State) : Result :=
  if s.depth = 0 then .fault (.stackUnderflow s.pc)
  else .next (advancePc (jumpTo { s with depth := 0 } s.asr))

end Sys2Proof.Machine
end

