-- ==== Sys2Proof/Machine/Control.lean ====
section
/-! DEFINITION. STOP, HALT, NOP (45_others.md R200–R203, 60_exceptions.md R255, R258). -/

namespace Sys2Proof.Machine

/-- The mode after a `HALT` or `STOP` with operand 0001B: standby if its release pin is low, else
unchanged (Tables 7-1, 7-2). -/
def enterUnlessHigh (s : State) (p : Pin) (m : Mode) : Mode := if pinLevel s p then s.mode else m

/-- `NOP` (R200). -/
def execNop (s : State) : Result := .next (advancePc s)

/-- `HALT h` (R201): unconditional for 0000B; for 0001B a NOP when P0B0 is high. -/
def execHalt (cond : Nibble) (s : State) : Result :=
  if standbyOperandOk cond then
    .next { advancePc s with
      mode := if releaseBit cond then enterUnlessHigh s .p0b0 (.halt true) else .halt false }
  else .fault (.badStandbyOperand s.pc (encode (.halt cond)))

/-- `STOP s` (R202): 0001B is a NOP when P0B1 is high; 0000B initialises the hardware, keeping
data memory, latches and ASR (R258). -/
def execStop (cond : Nibble) (s : State) : Result :=
  if standbyOperandOk cond then
    .next (if releaseBit cond then
        { advancePc s with mode := enterUnlessHigh s .p0b1 (.stop true) }
      else { initialise (advancePc s) with mode := .stop false })
  else .fault (.badStandbyOperand s.pc (encode (.stop cond)))

end Sys2Proof.Machine
end

