-- ==== Sys2Proof/Machine/Logical.lean ====
section
/-! DEFINITION. OR, AND, XOR (41_logical.md R150–R156): always stored, no flag of their own. -/

namespace Sys2Proof.Machine

/-- Stores a result and goes on; the whole effect of a logical instruction or a transfer once its
operands are read (R150). -/
def storeResult (s : State) (d : DataAddr) (v : Nibble) : Result :=
  .next (advancePc (dataWrite s d v))

/-- `OR r, m` (R151). -/
def execOrRM (r : RegNum) (m : DataAddr) (s : State) : Result :=
  operandRM s r m (storeResult s (regAddr r) (regRead s r ||| dataRead s m))

/-- `OR m, #n4` (R152). -/
def execOrMI (m : DataAddr) (n4 : Nibble) (s : State) : Result :=
  operandM s m (storeResult s m (dataRead s m ||| n4))

/-- `AND r, m` (R153). -/
def execAndRM (r : RegNum) (m : DataAddr) (s : State) : Result :=
  operandRM s r m (storeResult s (regAddr r) (regRead s r &&& dataRead s m))

/-- `AND m, #n4` (R154). -/
def execAndMI (m : DataAddr) (n4 : Nibble) (s : State) : Result :=
  operandM s m (storeResult s m (dataRead s m &&& n4))

/-- `XOR r, m` (R155). -/
def execXorRM (r : RegNum) (m : DataAddr) (s : State) : Result :=
  operandRM s r m (storeResult s (regAddr r) (regRead s r ^^^ dataRead s m))

/-- `XOR m, #n4` (R156). -/
def execXorMI (m : DataAddr) (n4 : Nibble) (s : State) : Result :=
  operandM s m (storeResult s m (dataRead s m ^^^ n4))

end Sys2Proof.Machine
end

