-- ==== Sys2Proof/Machine/Skip.lean ====
section
/-! DEFINITION. The skip instructions SKT, SKF, SKE, SKNE, SKGE, SKLT (42_test_compare.md
R160–R168). -/

namespace Sys2Proof.Machine

/-- A bit evaluation: CMP is reset, the condition decides the skip (R161, R162). -/
def bitTest (s : State) (m : DataAddr) (cond : Nibble → Bool) : Result :=
  operandM s m (.next (skipIf { s with cmp := false } (cond (testOperand s m))))

/-- A comparison: nothing is stored, no flag changes (R163). -/
def compare (s : State) (m : DataAddr) (cond : Nibble → Bool) : Result :=
  operandM s m (.next (skipIf s (cond (dataRead s m))))

/-- `SKT m, #n`: skip if all selected bits are 1 (R161). -/
def execSkt (m : DataAddr) (n : Nibble) (s : State) : Result :=
  bitTest s m fun v => v &&& n == n

/-- `SKF m, #n`: skip if all selected bits are 0 (R162). -/
def execSkf (m : DataAddr) (n : Nibble) (s : State) : Result :=
  bitTest s m fun v => v &&& n == 0

/-- `SKE m, #n4`: skip if equal (R164). -/
def execSke (m : DataAddr) (n4 : Nibble) (s : State) : Result :=
  compare s m fun v => v == n4

/-- `SKNE m, #n4`: skip if not equal (R165). -/
def execSkne (m : DataAddr) (n4 : Nibble) (s : State) : Result :=
  compare s m fun v => v != n4

/-- `SKGE m, #n4`: skip if greater than or equal, unsigned (R166). -/
def execSkge (m : DataAddr) (n4 : Nibble) (s : State) : Result :=
  compare s m fun v => decide (n4.toNat ≤ v.toNat)

/-- `SKLT m, #n4`: skip if less than, unsigned (R167). -/
def execSklt (m : DataAddr) (n4 : Nibble) (s : State) : Result :=
  compare s m fun v => decide (v.toNat < n4.toNat)

end Sys2Proof.Machine
end

