-- ==== Sys2Proof/Machine/Transfer.lean ====
section
/-! DEFINITION. RORC, LD, ST, MOV (43_rotation_transfer.md R180–R184). -/

namespace Sys2Proof.Machine

/-- The register after a rotation right through CY: CY enters bit 3 (R180). -/
def rotatedRight (v : Nibble) (c : Bool) : Nibble := BitVec.ofBool c ++ v.extractLsb' 1 3

/-- `RORC r`: CY → b3 → b2 → b1 → b0 → CY, stored whatever CMP is (R180). -/
def execRorc (r : RegNum) (s : State) : Result :=
  let old := regRead s r
  reading s (regAddr r)
    (.next (advancePc (regWrite { s with cy := old.getLsbD 0 } r (rotatedRight old s.cy))))

/-- `LD r, m` (R182). -/
def execLd (r : RegNum) (m : DataAddr) (s : State) : Result :=
  operandM s m (storeResult s (regAddr r) (dataRead s m))

/-- `ST m, r` (R183); `m` is not read. -/
def execSt (m : DataAddr) (r : RegNum) (s : State) : Result :=
  checked s m (reading s (regAddr r) (storeResult s m (regRead s r)))

/-- `MOV m, #n4`; `m` is not read (R184). -/
def execMov (m : DataAddr) (n4 : Nibble) (s : State) : Result :=
  checked s m (storeResult s m n4)

end Sys2Proof.Machine
end

