-- ==== Sys2Proof/Machine/Step.lean ====
section
/-! DEFINITION. One step of the machine (70_reset_and_hazards.md R290), and placing an instruction
where the next step fetches it. -/

namespace Sys2Proof.Machine

/-- One step, evaluated at an instruction-cycle boundary, in the order of precedence of R290:
RESET low; the end of a held reset; a standby mode; else the instruction at the pc. Then the next
sample of the pins becomes current. -/
def step (s : State) : Host.Outcome State Fault Refusal :=
  if resetLevel s then
    match s.mode with
    | .resetHeld => .next (nextSample { s with mode := .operating })
    | .halt _ => .next (nextSample (standbyStep s))
    | .stop _ => .next (nextSample (standbyStep s))
    | .operating =>
      match fetchInstr s with
      | .ok i => endStep (exec i s)
      | .error f => .fault f
  else .next (nextSample (takeReset s))

/-- `s` with an instruction word in program memory at the pc, the machine operating and RESET not
low, so that the next step runs it (assumption 3: the program is loaded from outside). -/
def State.withFetchWord (s : State) (nbits w : Nat) : State :=
  { s with
    rom := storeProgramWord s.rom s.pc (instrWord nbits w)
    mode := .operating
    inputs := inputsOutOfReset s }

end Sys2Proof.Machine
end

