-- ==== Sys2Proof/WellFormed.lean ====
section
/-! DEFINITION. The must-be-zero operand bits (30_encoding.md R112): the words that break them
decode, and fault when executed. -/

namespace Sys2Proof

/-- The instruction meets the operand constraints of R112; every other instruction has none. -/
def Instr.wellFormed : Instr → Bool
  | .addRM _ _ => true
  | .addMI _ _ => true
  | .addcRM _ _ => true
  | .addcMI _ _ => true
  | .subRM _ _ => true
  | .subMI _ _ => true
  | .subcRM _ _ => true
  | .subcMI _ _ => true
  | .orRM _ _ => true
  | .orMI _ _ => true
  | .andRM _ _ => true
  | .andMI _ _ => true
  | .xorRM _ _ => true
  | .xorMI _ _ => true
  | .skt _ _ => true
  | .skf _ _ => true
  | .ske _ _ => true
  | .skne _ _ => true
  | .skge _ _ => true
  | .sklt _ _ => true
  | .rorc _ => true
  | .ld _ _ => true
  | .st _ _ => true
  | .mov _ _ => true
  | .br addr => branchOperandOk addr
  | .call addr => branchOperandOk addr
  | .ret => true
  | .retsk => true
  | .stop cond => standbyOperandOk cond
  | .halt cond => standbyOperandOk cond
  | .nop => true

end Sys2Proof
end

