-- ==== Sys2Proof/Safety.lean ====
section
/-! DEFINITION. What a safe run is, and the words the statements use: the invariant, the instruction
a step runs, operands and destinations, the outcome of an addition or subtraction written on
natural numbers, the state with its unobservable latches hidden. -/

namespace Sys2Proof.Machine

/-! ### Safe runs -/

/-- `n` steps from `s` all answer a next state: no model fault is reached (60_exceptions.md R231). -/
def faultFree : Nat → State → Prop
  | 0, _ => True
  | n + 1, s => ∃ t, step s = .next t ∧ faultFree n t

/-- The step at `s` fetches and runs instruction `i` (70_reset_and_hazards.md R290 line 6). -/
def Runs (s : State) (i : Instr) : Prop :=
  resetLevel s = true ∧ s.mode = .operating ∧ fetchInstr s = .ok i

/-- A run is over by the convention of 92_eei_decisions.md D15, its first case: BR to itself. -/
def AtSelfBranch (s : State) : Prop :=
  ∃ addr, Runs s (.br addr) ∧ branchOperandOk addr = true ∧ branchTarget addr = s.pc

/-- What reset and `STOP 0000B` set (10_state.md R43, 60_exceptions.md R258). -/
def Initialised (s : State) : Prop :=
  s.pc = 0 ∧ s.bcd = false ∧ s.cmp = false ∧ s.cy = false ∧ s.z = false ∧
  s.out0B = false ∧ s.out0C = false ∧ s.out0D = false ∧ s.depth = 0

/-- The invariant: program memory is canonical, and while reset is held or `STOP 0000B` is in
effect the machine is initialised (R257: nothing changes there). -/
def Inv (s : State) : Prop :=
  Memory.wf s.rom = true ∧ (s.mode = .resetHeld ∨ s.mode = .stop false → Initialised s)

/-! ### Operands and destinations -/

/-- General register `r` as the register file holds it (10_state.md R27). -/
def reg (s : State) (r : RegNum) : Nibble := s.ram[r.toNat]'r.isLt

/-- The `m` operand, where the instruction has one (30_encoding.md R102). -/
def memOperand : Instr → Option DataAddr
  | .addRM _ m => some m
  | .addMI m _ => some m
  | .addcRM _ m => some m
  | .addcMI m _ => some m
  | .subRM _ m => some m
  | .subMI m _ => some m
  | .subcRM _ m => some m
  | .subcMI m _ => some m
  | .orRM _ m => some m
  | .orMI m _ => some m
  | .andRM _ m => some m
  | .andMI m _ => some m
  | .xorRM _ m => some m
  | .xorMI m _ => some m
  | .skt m _ => some m
  | .skf m _ => some m
  | .ske m _ => some m
  | .skne m _ => some m
  | .skge m _ => some m
  | .sklt m _ => some m
  | .rorc _ => none
  | .ld _ m => some m
  | .st m _ => some m
  | .mov m _ => some m
  | .br _ => none
  | .call _ => none
  | .ret => none
  | .retsk => none
  | .stop _ => none
  | .halt _ => none
  | .nop => none

/-- The data addresses an instruction reads as operands, in the order of its pseudocode. -/
def operandReads : Instr → List DataAddr
  | .addRM r m => [regAddr r, m]
  | .addMI m _ => [m]
  | .addcRM r m => [regAddr r, m]
  | .addcMI m _ => [m]
  | .subRM r m => [regAddr r, m]
  | .subMI m _ => [m]
  | .subcRM r m => [regAddr r, m]
  | .subcMI m _ => [m]
  | .orRM r m => [regAddr r, m]
  | .orMI m _ => [m]
  | .andRM r m => [regAddr r, m]
  | .andMI m _ => [m]
  | .xorRM r m => [regAddr r, m]
  | .xorMI m _ => [m]
  | .skt m _ => [m]
  | .skf m _ => [m]
  | .ske m _ => [m]
  | .skne m _ => [m]
  | .skge m _ => [m]
  | .sklt m _ => [m]
  | .rorc r => [regAddr r]
  | .ld _ m => [m]
  | .st _ r => [regAddr r]
  | .mov _ _ => []
  | .br _ => []
  | .call _ => []
  | .ret => []
  | .retsk => []
  | .stop _ => []
  | .halt _ => []
  | .nop => []

/-- No data fault stops `i`: its `m` is accessible and every nibble it reads is readable. Under the
spec's default policies, whenever `m` is mapped (20_memory.md R66, 70_reset_and_hazards.md R275). -/
def operandsReady (i : Instr) (s : State) : Bool :=
  (memOperand i).all (accessible s) && (operandReads i).all (readable s)

/-- `s` with `v` stored in general register `r`, whose nibble is then defined. -/
def setReg (s : State) (r : RegNum) (v : Nibble) : State :=
  { s with ram := s.ram.set r.toNat v r.isLt, defined := s.defined.set r.toNat true r.isLt }

/-- The data address an instruction stores its result to, computed as its meaning does. -/
def destination : Instr → Option DataAddr
  | .addRM r _ => some (regAddr r)
  | .addMI m _ => some m
  | .addcRM r _ => some (regAddr r)
  | .addcMI m _ => some m
  | .subRM r _ => some (regAddr r)
  | .subMI m _ => some m
  | .subcRM r _ => some (regAddr r)
  | .subcMI m _ => some m
  | .orRM r _ => some (regAddr r)
  | .orMI m _ => some m
  | .andRM r _ => some (regAddr r)
  | .andMI m _ => some m
  | .xorRM r _ => some (regAddr r)
  | .xorMI m _ => some m
  | .skt _ _ => none
  | .skf _ _ => none
  | .ske _ _ => none
  | .skne _ _ => none
  | .skge _ _ => none
  | .sklt _ _ => none
  | .rorc r => some (regAddr r)
  | .ld r _ => some (regAddr r)
  | .st m _ => some m
  | .mov m _ => some m
  | .br _ => none
  | .call _ => none
  | .ret => none
  | .retsk => none
  | .stop _ => none
  | .halt _ => none
  | .nop => none

/-- ADD, ADDC, SUB, SUBC in both forms (40_arithmetic.md R145). -/
def isArithmetic : Instr → Bool
  | .addRM _ _ => true
  | .addMI _ _ => true
  | .addcRM _ _ => true
  | .addcMI _ _ => true
  | .subRM _ _ => true
  | .subMI _ _ => true
  | .subcRM _ _ => true
  | .subcMI _ _ => true
  | .orRM _ _ => false
  | .orMI _ _ => false
  | .andRM _ _ => false
  | .andMI _ _ => false
  | .xorRM _ _ => false
  | .xorMI _ _ => false
  | .skt _ _ => false
  | .skf _ _ => false
  | .ske _ _ => false
  | .skne _ _ => false
  | .skge _ _ => false
  | .sklt _ _ => false
  | .rorc _ => false
  | .ld _ _ => false
  | .st _ _ => false
  | .mov _ _ => false
  | .br _ => false
  | .call _ => false
  | .ret => false
  | .retsk => false
  | .stop _ => false
  | .halt _ => false
  | .nop => false

/-- The bit evaluations SKT and SKF, which reset CMP (42_test_compare.md R161, R162). -/
def isBitTest (i : Instr) : Prop := ∃ m n, i = .skt m n ∨ i = .skf m n

/-- The instructions that can skip the next word (70_reset_and_hazards.md R278). -/
def isSkip (i : Instr) : Prop :=
  isBitTest i ∨ (∃ m n, i = .ske m n ∨ i = .skne m n ∨ i = .skge m n ∨ i = .sklt m n) ∨ i = .retsk

/-- The instructions that load the pc (44_branch_subroutine.md R190). -/
def loadsPc (i : Instr) : Prop := (∃ a, i = .br a ∨ i = .call a) ∨ i = .ret ∨ i = .retsk

/-! ### Arithmetic on natural numbers -/

/-- (CY, result) of an addition whose exact sum is `t`, 0..31: `t div 16` and `t mod 16`, or the row
`t` of Table 5-2 (40_arithmetic.md R131, R142). -/
def sumOutcome (decimal : Bool) (t : Nat) : Bool × Nibble :=
  if decimal then bcdAddTable.getD t (true, 0) else (decide (15 < t), BitVec.ofNat 4 t)

/-- (CY, result) of `a − b − c` for digits below 16 and `c` 0 or 1: borrow and difference modulo 16,
or the row of Table 5-2, negative rows counted from 32 (R131, R142). -/
def differenceOutcome (decimal : Bool) (a b c : Nat) : Bool × Nibble :=
  if decimal then bcdSubTable.getD ((a + 32 - (b + c)) % 32) (true, 0)
  else (decide (a < b + c), BitVec.ofNat 4 (a + 16 - (b + c)))

/-- The state an arithmetic instruction leaves, from its (CY, result) pair: with CMP = 1 only CY and
Z, with CMP = 0 the result stored last (R132, R133). -/
def arithOutcome (s : State) (d : DataAddr) (o : Bool × Nibble) : State :=
  if s.cmp then
    { s with cy := o.1, z := s.z && decide (o.2 = 0), pc := s.pc + 1, cycles := s.cycles + 1 }
  else
    { dataWrite { s with cy := o.1, z := decide (o.2 = 0) } d o.2 with
      pc := s.pc + 1, cycles := s.cycles + 1 }

/-! ### What is observable -/

/-- `s` with the output latch of every port in input mode replaced by 0: such a latch reaches no
pin (10_state.md R45). -/
def hideLatches (s : State) : State :=
  { s with
    latch0B := if s.out0B then s.latch0B else 0
    latch0C := if s.out0C then s.latch0C else 0
    latch0D := if s.out0D then s.latch0D else 0 }

/-- An outcome with the unobservable latches of its next state hidden. -/
def hideOutcome (r : Result) : Result :=
  match r with
  | .next s => .next (hideLatches s)
  | .fault f => .fault f
  | .refused f => .refused f

/-- The pc a model fault records (60_exceptions.md R231). -/
def Fault.pc : Fault → ProgAddr
  | .illegalInstruction p _ => p
  | .badBranchOperand p _ => p
  | .badStandbyOperand p _ => p
  | .unimplementedDataAddress p _ => p
  | .undefinedRead p _ => p
  | .stackOverflow p => p
  | .stackUnderflow p => p
  | .romNotProgrammed p => p

end Sys2Proof.Machine
end

