-- ==== Sys2Proof/Certificates/Slice0/Obligations.lean ====
section
/-! DEFINITION. The statements for the provers. An `exec` equation of the form
`exec i s = .next { s with … }` is the instruction's completion, its result and its whole frame at
once: every field not written in the update is unchanged.

Throughout: the pc wraps modulo 512 by the spec's decision D4 (log 23), a taken skip is folded into
one `exec` by its D13 (R160, log 15), and `cycles` is the model's own count (R289, log 17). -/

open Sys2Proof Sys2Proof.Machine

/-! ### Encoding (30_encoding.md) -/

/-- Decoding the word of an instruction gives the instruction back, for every operand value
(R103, R104). -/
def Obligations.DecodeEncodeRoundTrip : Prop := ∀ i : Instr, decode (encode i) = .ok i

/-- A word that decodes is the word of the instruction it decodes to: every word has one meaning
and no bit of it is dropped (R101–R104). -/
def Obligations.EncodeDecodeRoundTrip : Prop :=
  ∀ (w : ProgWord) (i : Instr), decode w = .ok i → encode i = w

/-- Words written out from the spec's encodings decode to what they stand for (R116 and
95_test_vectors.md V-S17, V-E). -/
def Obligations.SpecWordsDecode : Prop :=
  decode 0b1010011100011011 = .ok (.andMI 0x71 0b1011) ∧
  decode 0b1110111111110100 = .ok (.mov 0x7F 0b0100) ∧
  decode 0b0110000000010010 = .ok (.br 0x012) ∧
  decode 0b0011100001110001 = .ok (.rorc 1) ∧
  decode 0b0000000001010010 = .ok (.addRM 2 0x05) ∧
  decode 0b1001100000100010 = .ok (.subcMI 0x02 0b0010) ∧
  decode 0b1111011111110010 = .ok (.skt 0x7F 0b0010) ∧
  decode 0b1101100000011001 = .ok (.sklt 0x01 0b1001) ∧
  decode 0b0011101011110001 = .ok (.stop 1)

/-- R110: a word of one of the six unassigned opcodes has no instruction, and executing it faults
`IllegalInstruction` with the word (the spec's decision D6, log 18). -/
def Obligations.UnassignedOpcodesFault : Prop :=
  ∀ w : ProgWord,
    ((0x5000 ≤ w.toNat ∧ w.toNat ≤ 0x57FF) ∨ (0x6800 ≤ w.toNat ∧ w.toNat ≤ 0x6FFF) ∨
     (0x7000 ≤ w.toNat ∧ w.toNat ≤ 0x77FF) ∨ (0x7800 ≤ w.toNat ∧ w.toNat ≤ 0x7FFF) ∨
     (0xB800 ≤ w.toNat ∧ w.toNat ≤ 0xBFFF) ∨ (0xD000 ≤ w.toNat ∧ w.toNat ≤ 0xD7FF)) →
    (∀ i, decode w ≠ .ok i) ∧
    ∀ s : State, resetLevel s = true → s.mode = .operating →
      programWord s.rom s.pc = some w → step s = .fault (.illegalInstruction s.pc w)

/-- R111: of the 2048 words under opcode 00111 exactly the 51 of R104 have an instruction; executing
any other faults `IllegalInstruction` (the spec's decision D6, log 18). -/
def Obligations.GroupWordsAssigned : Prop :=
  ∀ w : ProgWord, 0x3800 ≤ w.toNat → w.toNat ≤ 0x3FFF →
    ((∃ i, decode w = .ok i) ↔
      ((0x3870 ≤ w.toNat ∧ w.toNat ≤ 0x387F) ∨ w = 0x38E0 ∨ w = 0x39E0 ∨
       (0x3AF0 ≤ w.toNat ∧ w.toNat ≤ 0x3AFF) ∨ (0x3BF0 ≤ w.toNat ∧ w.toNat ≤ 0x3BFF) ∨
       w = 0x3CF0)) ∧
    ((∀ i, decode w ≠ .ok i) →
      ∀ s : State, resetLevel s = true → s.mode = .operating →
        programWord s.rom s.pc = some w → step s = .fault (.illegalInstruction s.pc w))

/-! ### Data memory and pins (20_memory.md, 60_exceptions.md) -/

/-- R64: what a read of each data-memory address gives. Which addresses are not carried out, under
`UNMAPPED_POLICY = fault`, is the spec's decision D1 (log 12), and that always-zero bits read 0 with
every write discarded its D21 (log 27). -/
def Obligations.DataReadMap : Prop :=
  ∀ s : State,
    (∀ i : Fin 16, dataRead s (BitVec.ofNat 7 i) = s.ram[i]) ∧
    dataRead s 0x71 = 0#1 ++ BitVec.ofBool (pinLevel s .p0b2) ++ BitVec.ofBool (pinLevel s .p0b1)
      ++ BitVec.ofBool (pinLevel s .p0b0) ∧
    dataRead s 0x72 = BitVec.ofBool (pinLevel s .p0c3) ++ BitVec.ofBool (pinLevel s .p0c2)
      ++ BitVec.ofBool (pinLevel s .p0c1) ++ BitVec.ofBool (pinLevel s .p0c0) ∧
    dataRead s 0x73 = BitVec.ofBool (pinLevel s .p0d3) ++ BitVec.ofBool (pinLevel s .p0d2)
      ++ BitVec.ofBool (pinLevel s .p0d1) ++ BitVec.ofBool (pinLevel s .p0d0) ∧
    dataRead s 0x7E = 0#3 ++ BitVec.ofBool s.bcd ∧
    dataRead s 0x7F = BitVec.ofBool s.cmp ++ BitVec.ofBool s.cy ++ BitVec.ofBool s.z ++ 0#1 ∧
    (∀ a : DataAddr, accessible s a = false ↔
      s.chip.unmapped = .fault ∧
        ((0x10 ≤ a.toNat ∧ a.toNat ≤ 0x70) ∨ (0x74 ≤ a.toNat ∧ a.toNat ≤ 0x7D)))

/-- R65: what a write to each data-memory address does, and nothing else. The defined-bit is R275's
(log 13); that a write to an unmapped address, once carried out, changes nothing is the spec's
decision D1 (log 12), that always-zero bits discard it D21 (log 27). -/
def Obligations.DataWriteMap : Prop :=
  ∀ (s : State) (v : Nibble),
    (∀ i : Fin 16, dataWrite s (BitVec.ofNat 7 i) v =
      { s with ram := s.ram.set i v, defined := s.defined.set i true }) ∧
    dataWrite s 0x71 v = { s with latch0B := v.setWidth 3, out0B := true } ∧
    dataWrite s 0x72 v = { s with latch0C := v, out0C := true } ∧
    dataWrite s 0x73 v = { s with latch0D := v, out0D := true } ∧
    dataWrite s 0x7E v = { s with bcd := v.getLsbD 0 } ∧
    dataWrite s 0x7F v = { s with cmp := v.getLsbD 3, cy := v.getLsbD 2, z := v.getLsbD 1 } ∧
    (∀ a : DataAddr,
      ((0x10 ≤ a.toNat ∧ a.toNat ≤ 0x70) ∨ (0x74 ≤ a.toNat ∧ a.toNat ≤ 0x7D)) →
        dataWrite s a v = s)

/-- Read after write: a RAM nibble reads as written, PSWORD reads as written but for its
always-zero bits (10_state.md R34, decision D21, log 27), and every other address reads as before.
For a port this holds within one pin sample (log 9, 16); for an unmapped address it is the model's
choice that the free value depends on tick and address alone (decision D1, log 12). -/
def Obligations.DataReadAfterWrite : Prop :=
  ∀ (s : State) (a : DataAddr) (v : Nibble),
    (a.toNat ≤ 0x0F → dataRead (dataWrite s a v) a = v) ∧
    (a = 0x7E → dataRead (dataWrite s a v) a = v &&& 0b0001) ∧
    (a = 0x7F → dataRead (dataWrite s a v) a = v &&& 0b1110) ∧
    (∀ b : DataAddr, b ≠ a → dataRead (dataWrite s a v) b = dataRead s b)

/-- R244: the chip's own drive of every port pin, by output mode and latch bit; and a port 0B pin
with its own `P0BPLUP` is pulled high whenever the chip does not drive it low, so that it reads 1
where nothing else drives it (under `PIN_FOLLOWS_LATCH`, without which levels are free inputs). -/
def Obligations.ChipDriveTable : Prop :=
  ∀ (s : State) (p : Pin) (out bit : Bool),
    ((p, out, bit) ∈
        [(Pin.p0b0, s.out0B, s.latch0B.getLsbD 0), (Pin.p0b1, s.out0B, s.latch0B.getLsbD 1),
         (Pin.p0b2, s.out0B, s.latch0B.getLsbD 2)] →
      (out = false → chipDrive s p = .hiZ) ∧
      (out = true → bit = true → chipDrive s p = .hiZ) ∧
      (out = true → bit = false → chipDrive s p = .low)) ∧
    ((p, out, bit) ∈
        [(Pin.p0c0, s.out0C, s.latch0C.getLsbD 0), (Pin.p0c1, s.out0C, s.latch0C.getLsbD 1),
         (Pin.p0c2, s.out0C, s.latch0C.getLsbD 2), (Pin.p0c3, s.out0C, s.latch0C.getLsbD 3),
         (Pin.p0d0, s.out0D, s.latch0D.getLsbD 0), (Pin.p0d1, s.out0D, s.latch0D.getLsbD 1),
         (Pin.p0d2, s.out0D, s.latch0D.getLsbD 2), (Pin.p0d3, s.out0D, s.latch0D.getLsbD 3)] →
      (out = false → chipDrive s p = .hiZ) ∧
      (out = true → bit = true → chipDrive s p = .high) ∧
      (out = true → bit = false → chipDrive s p = .low)) ∧
    ((p = .p0b0 ∧ s.chip.optP0B0 = .pullUp) ∨ (p = .p0b1 ∧ s.chip.optP0B1 = .pullUp) ∨
        (p = .p0b2 ∧ s.chip.optP0B2 = .pullUp) →
      chipDrive s p ≠ .low → s.chip.pinFollowsLatch = true →
        (currentSample s).drive p = .hiZ → pinLevel s p = true)

/-- R245, R246, R215: a port pin reads as the chip drives it where it follows its latch, else as the
environment drives it; undriven, a port 0B pin with its own `P0BPLUP` reads 1. RESET, which the chip
never drives, reads as the environment drives it, and 1 undriven with `RESPLUP`, whatever
`PIN_FOLLOWS_LATCH` is (log 21). A pin nothing decides is left open (log 10); which drives win is the
spec's decision D11. -/
def Obligations.PinLevelRules : Prop :=
  ∀ s : State,
    (∀ p : Pin, p ≠ .reset → s.chip.pinFollowsLatch = true →
      (chipDrive s p = .low → pinLevel s p = false) ∧
      (chipDrive s p = .high → pinLevel s p = true) ∧
      (chipDrive s p = .hiZ →
        ((currentSample s).drive p = .low → pinLevel s p = false) ∧
        ((currentSample s).drive p = .high → pinLevel s p = true) ∧
        ((currentSample s).drive p = .hiZ →
          ((p = .p0b0 ∧ s.chip.optP0B0 = .pullUp) ∨ (p = .p0b1 ∧ s.chip.optP0B1 = .pullUp) ∨
            (p = .p0b2 ∧ s.chip.optP0B2 = .pullUp)) → pinLevel s p = true))) ∧
    (∀ p : Pin, p ≠ .reset → s.chip.pinFollowsLatch = false →
      ((currentSample s).drive p = .low → pinLevel s p = false) ∧
      ((currentSample s).drive p = .high → pinLevel s p = true)) ∧
    ((currentSample s).reset = .low → resetLevel s = false) ∧
    ((currentSample s).reset = .high → resetLevel s = true) ∧
    ((currentSample s).reset = .hiZ → s.chip.optReset = .pullUp → resetLevel s = true)

/-- Reading a port back after writing it, where pins follow the latch: the push-pull ports give the
written nibble; on port 0B a written 0 reads 0 and bit 3 reads 0 (R245 (b), R69). -/
def Obligations.PortReadBack : Prop :=
  ∀ (s : State) (v : Nibble), s.chip.pinFollowsLatch = true →
    dataRead (dataWrite s 0x72 v) 0x72 = v ∧
    dataRead (dataWrite s 0x73 v) 0x73 = v ∧
    (dataRead (dataWrite s 0x71 v) 0x71).getLsbD 3 = false ∧
    (∀ k < 3, v.getLsbD k = false → (dataRead (dataWrite s 0x71 v) 0x71).getLsbD k = false)

/-- R66: an instruction whose `m` lies in 10H–70H or 74H–7DH faults `UnimplementedDataAddress`
under `UNMAPPED_POLICY = fault`, before any undefined nibble is looked at (R235 (c)); under `any` it
runs once its operands are ready, and a write there changes no state (the spec's decision D1, log
12). -/
def Obligations.UnmappedAddressPolicy : Prop :=
  ∀ (i : Instr) (m : DataAddr) (s : State), memOperand i = some m →
    ((0x10 ≤ m.toNat ∧ m.toNat ≤ 0x70) ∨ (0x74 ≤ m.toNat ∧ m.toNat ≤ 0x7D)) →
    (s.chip.unmapped = .fault → exec i s = .fault (.unimplementedDataAddress s.pc m)) ∧
    (s.chip.unmapped = .any → (operandsReady i s = true → ∃ t, exec i s = .next t) ∧
      ∀ v, dataWrite s m v = s)

/-! ### Arithmetic (40_arithmetic.md)

Here and below `operandsReady` says that no data fault stops the instruction; what happens otherwise
is stated once for every instruction, in `UnmappedAddressPolicy` and `UndefinedReadPolicy`. `cycles`
is the auxiliary count of R289; a stored RAM nibble is defined from then on (R275, log 13).

`sumOutcome` and `differenceOutcome` give (CY, result) from the exact sum or difference of natural
numbers, `arithOutcome` the state left: CY and Z alone with CMP = 1, the result stored last with
CMP = 0. That Z tests the converted result with BCD = 1 is the spec's decision D9 (log 24), that the
store comes last, so that a stored PSWORD wins, its D10 (log 25). -/

/-- R134, R135: `ADD r, m` and `ADD m, #n4`: word and result. Z of the converted result is the spec's
decision D9 (log 24), the store last its D10 (log 25); so for the three that follow. -/
def Obligations.AddEffect : Prop :=
  (∀ (r : RegNum) (m : DataAddr) (s : State),
    encode (.addRM r m) = BitVec.ofNat 16 (0x0000 + m.toNat * 16 + r.toNat) ∧
    (operandsReady (.addRM r m) s = true → exec (.addRM r m) s = .next (arithOutcome s (regAddr r)
      (sumOutcome s.bcd ((reg s r).toNat + (dataRead s m).toNat))))) ∧
  (∀ (m : DataAddr) (n4 : Nibble) (s : State),
    encode (.addMI m n4) = BitVec.ofNat 16 (0x8000 + m.toNat * 16 + n4.toNat) ∧
    (operandsReady (.addMI m n4) s = true → exec (.addMI m n4) s = .next (arithOutcome s m
      (sumOutcome s.bcd ((dataRead s m).toNat + n4.toNat)))))

/-- R136, R137: `ADDC r, m` and `ADDC m, #n4` (decisions D9, D10; log 24, 25). -/
def Obligations.AddcEffect : Prop :=
  (∀ (r : RegNum) (m : DataAddr) (s : State),
    encode (.addcRM r m) = BitVec.ofNat 16 (0x1000 + m.toNat * 16 + r.toNat) ∧
    (operandsReady (.addcRM r m) s = true → exec (.addcRM r m) s = .next (arithOutcome s (regAddr r)
      (sumOutcome s.bcd ((reg s r).toNat + (dataRead s m).toNat + s.cy.toNat))))) ∧
  (∀ (m : DataAddr) (n4 : Nibble) (s : State),
    encode (.addcMI m n4) = BitVec.ofNat 16 (0x9000 + m.toNat * 16 + n4.toNat) ∧
    (operandsReady (.addcMI m n4) s = true → exec (.addcMI m n4) s = .next (arithOutcome s m
      (sumOutcome s.bcd ((dataRead s m).toNat + n4.toNat + s.cy.toNat)))))

/-- R138, R139: `SUB r, m` and `SUB m, #n4` (decisions D9, D10; log 24, 25). -/
def Obligations.SubEffect : Prop :=
  (∀ (r : RegNum) (m : DataAddr) (s : State),
    encode (.subRM r m) = BitVec.ofNat 16 (0x0800 + m.toNat * 16 + r.toNat) ∧
    (operandsReady (.subRM r m) s = true → exec (.subRM r m) s = .next (arithOutcome s (regAddr r)
      (differenceOutcome s.bcd (reg s r).toNat (dataRead s m).toNat 0)))) ∧
  (∀ (m : DataAddr) (n4 : Nibble) (s : State),
    encode (.subMI m n4) = BitVec.ofNat 16 (0x8800 + m.toNat * 16 + n4.toNat) ∧
    (operandsReady (.subMI m n4) s = true → exec (.subMI m n4) s = .next (arithOutcome s m
      (differenceOutcome s.bcd (dataRead s m).toNat n4.toNat 0))))

/-- R140, R141: `SUBC r, m` and `SUBC m, #n4` (decisions D9, D10; log 24, 25). -/
def Obligations.SubcEffect : Prop :=
  (∀ (r : RegNum) (m : DataAddr) (s : State),
    encode (.subcRM r m) = BitVec.ofNat 16 (0x1800 + m.toNat * 16 + r.toNat) ∧
    (operandsReady (.subcRM r m) s = true → exec (.subcRM r m) s = .next (arithOutcome s (regAddr r)
      (differenceOutcome s.bcd (reg s r).toNat (dataRead s m).toNat s.cy.toNat)))) ∧
  (∀ (m : DataAddr) (n4 : Nibble) (s : State),
    encode (.subcMI m n4) = BitVec.ofNat 16 (0x9800 + m.toNat * 16 + n4.toNat) ∧
    (operandsReady (.subcMI m n4) s = true → exec (.subcMI m n4) s = .next (arithOutcome s m
      (differenceOutcome s.bcd (dataRead s m).toNat n4.toNat s.cy.toNat))))

/-- Decimal digits add and subtract in decimal, with CY the decimal carry or borrow: `ADDC r, m`
and `SUBC r, m` with BCD = 1, CMP = 0 and both operands 0–9 (R131, R143). -/
def Obligations.DecimalDigits : Prop :=
  ∀ (r : RegNum) (m : DataAddr) (s : State), operandsReady (.addcRM r m) s = true →
    s.bcd = true → s.cmp = false → (reg s r).toNat ≤ 9 → (dataRead s m).toNat ≤ 9 →
    (∃ t, exec (.addcRM r m) s = .next t ∧
      (reg t r).toNat = ((reg s r).toNat + (dataRead s m).toNat + s.cy.toNat) % 10 ∧
      t.cy = decide (10 ≤ (reg s r).toNat + (dataRead s m).toNat + s.cy.toNat)) ∧
    (∃ t, exec (.subcRM r m) s = .next t ∧
      (reg t r).toNat = ((reg s r).toNat + 10 - ((dataRead s m).toNat + s.cy.toNat)) % 10 ∧
      t.cy = decide ((reg s r).toNat < (dataRead s m).toNat + s.cy.toNat))

/-- Outside the decimal range "the CY flag is set (1) and the result of operation is output as a
value greater than or equal to 1010B" (R131): with BCD = 1, every form of ADD, ADDC, SUB, SUBC whose
sum is 20 or more, or whose difference is above 9 or below −10, leaves the state of some result of
at least 10 with CY set, stored or not as CMP says. -/
def Obligations.DecimalOutOfRange : Prop :=
  ∀ (i : Instr) (d : DataAddr) (a b : Nat) (s : State), operandsReady i s = true → s.bcd = true →
    ((∃ r m, d = regAddr r ∧ a = (reg s r).toNat ∧
        ((i = .addRM r m ∧ b = (dataRead s m).toNat ∧ 20 ≤ a + b) ∨
         (i = .addcRM r m ∧ b = (dataRead s m).toNat + s.cy.toNat ∧ 20 ≤ a + b) ∨
         (i = .subRM r m ∧ b = (dataRead s m).toNat ∧ (b + 10 ≤ a ∨ a + 10 < b)) ∨
         (i = .subcRM r m ∧ b = (dataRead s m).toNat + s.cy.toNat ∧
           (b + 10 ≤ a ∨ a + 10 < b)))) ∨
     (∃ n4 : Nibble, a = (dataRead s d).toNat ∧
        ((i = .addMI d n4 ∧ b = n4.toNat ∧ 20 ≤ a + b) ∨
         (i = .addcMI d n4 ∧ b = n4.toNat + s.cy.toNat ∧ 20 ≤ a + b) ∨
         (i = .subMI d n4 ∧ b = n4.toNat ∧ (b + 10 ≤ a ∨ a + 10 < b)) ∨
         (i = .subcMI d n4 ∧ b = n4.toNat + s.cy.toNat ∧ (b + 10 ≤ a ∨ a + 10 < b))))) →
    ∃ v : Nibble, 10 ≤ v.toNat ∧ exec i s = .next (arithOutcome s d (true, v))

/-- Accumulating compare: with CMP = 1 every arithmetic instruction changes nothing but CY, Z, the
pc and the cycle count, and Z can only go from 1 to 0 (R132, R144). -/
def Obligations.AccumulatingCompare : Prop :=
  ∀ (i : Instr) (s t : State), isArithmetic i = true → s.cmp = true → exec i s = .next t →
    t = { s with cy := t.cy, z := t.z, pc := s.pc + 1, cycles := s.cycles + 1 } ∧
    (t.z = true → s.z = true)

/-- R133: arithmetic on PSW (7FH). With CMP = 0 the flags become bits 3..1 of the result; with
CMP = 1 nothing is stored and CY, Z are set as for any operand. The operand read is
`{CMP, CY, Z, 0}` as it stood before (the order is the spec's decision D10, log 25). -/
def Obligations.ArithmeticOnPsw : Prop :=
  ∀ (i : Instr) (o : Bool × Nibble) (n4 : Nibble) (s : State),
    let psw := 8 * s.cmp.toNat + 4 * s.cy.toNat + 2 * s.z.toNat
    ((i = .addMI 0x7F n4 ∧ o = sumOutcome s.bcd (psw + n4.toNat)) ∨
     (i = .addcMI 0x7F n4 ∧ o = sumOutcome s.bcd (psw + n4.toNat + s.cy.toNat)) ∨
     (i = .subMI 0x7F n4 ∧ o = differenceOutcome s.bcd psw n4.toNat 0) ∨
     (i = .subcMI 0x7F n4 ∧ o = differenceOutcome s.bcd psw n4.toNat s.cy.toNat)) →
    (s.cmp = false → exec i s = .next { s with
      cmp := o.2.getLsbD 3, cy := o.2.getLsbD 2, z := o.2.getLsbD 1,
      pc := s.pc + 1, cycles := s.cycles + 1 }) ∧
    (s.cmp = true → exec i s = .next { s with
      cy := o.1, z := s.z && decide (o.2 = 0), pc := s.pc + 1, cycles := s.cycles + 1 })

/-! ### Logical instructions (41_logical.md) -/

/-- R151, R152: `OR r, m` and `OR m, #n4`, bit by bit, stored whatever CMP and BCD are, no flag of
their own. -/
def Obligations.OrEffect : Prop :=
  (∀ (r : RegNum) (m : DataAddr) (s : State),
    encode (.orRM r m) = BitVec.ofNat 16 (0x3000 + m.toNat * 16 + r.toNat) ∧
    (operandsReady (.orRM r m) s = true → ∃ v : Nibble,
      (∀ k < 4, v.getLsbD k = ((reg s r).getLsbD k || (dataRead s m).getLsbD k)) ∧
      exec (.orRM r m) s = .next { setReg s r v with
        pc := s.pc + 1, cycles := s.cycles + 1 })) ∧
  (∀ (m : DataAddr) (n4 : Nibble) (s : State),
    encode (.orMI m n4) = BitVec.ofNat 16 (0xB000 + m.toNat * 16 + n4.toNat) ∧
    (operandsReady (.orMI m n4) s = true → ∃ v : Nibble,
      (∀ k < 4, v.getLsbD k = ((dataRead s m).getLsbD k || n4.getLsbD k)) ∧
      exec (.orMI m n4) s = .next { dataWrite s m v with
        pc := s.pc + 1, cycles := s.cycles + 1 }))

/-- R153, R154: `AND r, m` and `AND m, #n4`. -/
def Obligations.AndEffect : Prop :=
  (∀ (r : RegNum) (m : DataAddr) (s : State),
    encode (.andRM r m) = BitVec.ofNat 16 (0x2000 + m.toNat * 16 + r.toNat) ∧
    (operandsReady (.andRM r m) s = true → ∃ v : Nibble,
      (∀ k < 4, v.getLsbD k = ((reg s r).getLsbD k && (dataRead s m).getLsbD k)) ∧
      exec (.andRM r m) s = .next { setReg s r v with
        pc := s.pc + 1, cycles := s.cycles + 1 })) ∧
  (∀ (m : DataAddr) (n4 : Nibble) (s : State),
    encode (.andMI m n4) = BitVec.ofNat 16 (0xA000 + m.toNat * 16 + n4.toNat) ∧
    (operandsReady (.andMI m n4) s = true → ∃ v : Nibble,
      (∀ k < 4, v.getLsbD k = ((dataRead s m).getLsbD k && n4.getLsbD k)) ∧
      exec (.andMI m n4) s = .next { dataWrite s m v with
        pc := s.pc + 1, cycles := s.cycles + 1 }))

/-- R155, R156: `XOR r, m` and `XOR m, #n4`. -/
def Obligations.XorEffect : Prop :=
  (∀ (r : RegNum) (m : DataAddr) (s : State),
    encode (.xorRM r m) = BitVec.ofNat 16 (0x2800 + m.toNat * 16 + r.toNat) ∧
    (operandsReady (.xorRM r m) s = true → ∃ v : Nibble,
      (∀ k < 4, v.getLsbD k = ((reg s r).getLsbD k != (dataRead s m).getLsbD k)) ∧
      exec (.xorRM r m) s = .next { setReg s r v with
        pc := s.pc + 1, cycles := s.cycles + 1 })) ∧
  (∀ (m : DataAddr) (n4 : Nibble) (s : State),
    encode (.xorMI m n4) = BitVec.ofNat 16 (0xA800 + m.toNat * 16 + n4.toNat) ∧
    (operandsReady (.xorMI m n4) s = true → ∃ v : Nibble,
      (∀ k < 4, v.getLsbD k = ((dataRead s m).getLsbD k != n4.getLsbD k)) ∧
      exec (.xorMI m n4) s = .next { dataWrite s m v with
        pc := s.pc + 1, cycles := s.cycles + 1 }))

/-! ### Skip instructions (42_test_compare.md) -/

/-- R161, R168: `SKT m, #n` resets CMP and skips iff every bit selected by `n` is 1. The operand is
read before the reset, or, under `SKT_CMP_ORDER = reset_first`, after it (the spec's decision D8,
log 14). -/
def Obligations.SktEffect : Prop :=
  ∀ (m : DataAddr) (n : Nibble) (s : State),
    let v := if s.chip.sktCmpOrder = .resetFirst ∧ m = 0x7F then dataRead s m &&& 0b0111
      else dataRead s m
    encode (.skt m n) = BitVec.ofNat 16 (0xF000 + m.toNat * 16 + n.toNat) ∧
    (operandsReady (.skt m n) s = true → (∀ k < 4, n.getLsbD k = true → v.getLsbD k = true) →
      exec (.skt m n) s =
        .next { s with cmp := false, pc := s.pc + 2, cycles := s.cycles + 2 }) ∧
    (operandsReady (.skt m n) s = true → (∃ k < 4, n.getLsbD k = true ∧ v.getLsbD k = false) →
      exec (.skt m n) s =
        .next { s with cmp := false, pc := s.pc + 1, cycles := s.cycles + 1 })

/-- R162, R168: `SKF m, #n` resets CMP and skips iff every bit selected by `n` is 0 (order as for
SKT: decision D8, log 14). -/
def Obligations.SkfEffect : Prop :=
  ∀ (m : DataAddr) (n : Nibble) (s : State),
    let v := if s.chip.sktCmpOrder = .resetFirst ∧ m = 0x7F then dataRead s m &&& 0b0111
      else dataRead s m
    encode (.skf m n) = BitVec.ofNat 16 (0xF800 + m.toNat * 16 + n.toNat) ∧
    (operandsReady (.skf m n) s = true → (∀ k < 4, n.getLsbD k = true → v.getLsbD k = false) →
      exec (.skf m n) s =
        .next { s with cmp := false, pc := s.pc + 2, cycles := s.cycles + 2 }) ∧
    (operandsReady (.skf m n) s = true → (∃ k < 4, n.getLsbD k = true ∧ v.getLsbD k = true) →
      exec (.skf m n) s =
        .next { s with cmp := false, pc := s.pc + 1, cycles := s.cycles + 1 })

/-- R164, R165: `SKE` skips iff the operand equals the immediate, `SKNE` iff it does not; no flag
changes, whatever BCD and CMP are (R163). That a taken skip is folded into pc + 2 is the spec's
decision D13 (R160, log 15), the count `cycles` the model's own (log 17). -/
def Obligations.EqualitySkips : Prop :=
  ∀ (m : DataAddr) (n4 : Nibble) (s : State),
    encode (.ske m n4) = BitVec.ofNat 16 (0x4800 + m.toNat * 16 + n4.toNat) ∧
    encode (.skne m n4) = BitVec.ofNat 16 (0x5800 + m.toNat * 16 + n4.toNat) ∧
    (accessible s m = true → readable s m = true → (dataRead s m).toNat = n4.toNat →
      exec (.ske m n4) s = .next { s with pc := s.pc + 2, cycles := s.cycles + 2 } ∧
      exec (.skne m n4) s = .next { s with pc := s.pc + 1, cycles := s.cycles + 1 }) ∧
    (accessible s m = true → readable s m = true → (dataRead s m).toNat ≠ n4.toNat →
      exec (.ske m n4) s = .next { s with pc := s.pc + 1, cycles := s.cycles + 1 } ∧
      exec (.skne m n4) s = .next { s with pc := s.pc + 2, cycles := s.cycles + 2 })

/-- R166, R167: `SKGE` skips iff the operand is at least the immediate, `SKLT` iff it is less, both
unsigned; no flag changes (R163). The folded skip is the spec's decision D13 (R160, log 15), the
count `cycles` the model's own (log 17). -/
def Obligations.OrderSkips : Prop :=
  ∀ (m : DataAddr) (n4 : Nibble) (s : State),
    encode (.skge m n4) = BitVec.ofNat 16 (0xC800 + m.toNat * 16 + n4.toNat) ∧
    encode (.sklt m n4) = BitVec.ofNat 16 (0xD800 + m.toNat * 16 + n4.toNat) ∧
    (accessible s m = true → readable s m = true → n4.toNat ≤ (dataRead s m).toNat →
      exec (.skge m n4) s = .next { s with pc := s.pc + 2, cycles := s.cycles + 2 } ∧
      exec (.sklt m n4) s = .next { s with pc := s.pc + 1, cycles := s.cycles + 1 }) ∧
    (accessible s m = true → readable s m = true → (dataRead s m).toNat < n4.toNat →
      exec (.skge m n4) s = .next { s with pc := s.pc + 1, cycles := s.cycles + 1 } ∧
      exec (.sklt m n4) s = .next { s with pc := s.pc + 2, cycles := s.cycles + 2 })

/-! ### Rotation and transfers (43_rotation_transfer.md) -/

/-- R180: `RORC r` puts CY into bit 3, each bit one place down, bit 0 into CY; stored whatever CMP
is, no other flag. -/
def Obligations.RorcEffect : Prop :=
  ∀ (r : RegNum) (s : State),
    encode (.rorc r) = BitVec.ofNat 16 (0x3870 + r.toNat) ∧
    (operandsReady (.rorc r) s = true →
      ∃ v : Nibble, v.toNat = (reg s r).toNat / 2 + 8 * s.cy.toNat ∧
        exec (.rorc r) s = .next { setReg s r v with
          cy := decide ((reg s r).toNat % 2 = 1), pc := s.pc + 1, cycles := s.cycles + 1 })

/-- Five `RORC r` in a row restore the register and CY: a 5-bit rotation (R180). -/
def Obligations.FiveRotationsRestore : Prop :=
  ∀ (r : RegNum) (s : State), operandsReady (.rorc r) s = true → ∃ s1 s2 s3 s4 s5,
    exec (.rorc r) s = .next s1 ∧ exec (.rorc r) s1 = .next s2 ∧ exec (.rorc r) s2 = .next s3 ∧
    exec (.rorc r) s3 = .next s4 ∧ exec (.rorc r) s4 = .next s5 ∧
    s5 = { setReg s r (reg s r) with pc := s.pc + 5, cycles := s.cycles + 5 }

/-- R182: `LD r, m`. -/
def Obligations.LdEffect : Prop :=
  ∀ (r : RegNum) (m : DataAddr) (s : State),
    encode (.ld r m) = BitVec.ofNat 16 (0x4000 + m.toNat * 16 + r.toNat) ∧
    (operandsReady (.ld r m) s = true → exec (.ld r m) s = .next { setReg s r (dataRead s m) with
      pc := s.pc + 1, cycles := s.cycles + 1 })

/-- R183: `ST m, r`. -/
def Obligations.StEffect : Prop :=
  ∀ (m : DataAddr) (r : RegNum) (s : State),
    encode (.st m r) = BitVec.ofNat 16 (0xC000 + m.toNat * 16 + r.toNat) ∧
    (operandsReady (.st m r) s = true → exec (.st m r) s = .next { dataWrite s m (reg s r) with
      pc := s.pc + 1, cycles := s.cycles + 1 })

/-- R184: `MOV m, #n4`. -/
def Obligations.MovEffect : Prop :=
  ∀ (m : DataAddr) (n4 : Nibble) (s : State),
    encode (.mov m n4) = BitVec.ofNat 16 (0xE800 + m.toNat * 16 + n4.toNat) ∧
    (operandsReady (.mov m n4) s = true → exec (.mov m n4) s = .next { dataWrite s m n4 with
      pc := s.pc + 1, cycles := s.cycles + 1 })

/-! ### Control transfer (44_branch_subroutine.md) -/

/-- R191: `BR addr` loads the 9-bit target; operand bits 10..9 must be 00, else a
model fault (the spec's decision D5, log 18). -/
def Obligations.BrEffect : Prop :=
  ∀ (addr : BitVec 11) (s : State),
    encode (.br addr) = BitVec.ofNat 16 (0x6000 + addr.toNat) ∧
    (addr.toNat < 512 → exec (.br addr) s = .next { s with
      pc := BitVec.ofNat 9 addr.toNat, cycles := s.cycles + 1 }) ∧
    (512 ≤ addr.toNat → exec (.br addr) s =
      .fault (.badBranchOperand s.pc (BitVec.ofNat 16 (0x6000 + addr.toNat))))

/-- R192: `CALL addr` saves the address of the word after it and jumps; a bad operand faults before
a full stack does (the spec's decisions D2, D3, D5, D18; log 18, 22). -/
def Obligations.CallEffect : Prop :=
  ∀ (addr : BitVec 11) (s : State),
    encode (.call addr) = BitVec.ofNat 16 (0xE000 + addr.toNat) ∧
    (addr.toNat < 512 → s.depth = 0 → exec (.call addr) s = .next { s with
      asr := BitVec.ofNat 9 (s.pc.toNat + 1), depth := 1,
      pc := BitVec.ofNat 9 addr.toNat, cycles := s.cycles + 1 }) ∧
    (addr.toNat < 512 → s.depth = 1 → exec (.call addr) s = .fault (.stackOverflow s.pc)) ∧
    (512 ≤ addr.toNat → exec (.call addr) s =
      .fault (.badBranchOperand s.pc (BitVec.ofNat 16 (0xE000 + addr.toNat))))

/-- R193, R194: `RET` returns; `RETSK` returns and skips the word at the return address; with no
return address held both fault (the spec's decision D3, log 18). The skip folded into RETSK is D13
(R160, log 15). -/
def Obligations.ReturnEffect : Prop :=
  ∀ s : State,
    encode .ret = 0x38E0 ∧ encode .retsk = 0x39E0 ∧
    (s.depth = 1 →
      exec .ret s = .next { s with pc := s.asr, depth := 0, cycles := s.cycles + 1 } ∧
      exec .retsk s = .next { s with pc := s.asr + 1, depth := 0, cycles := s.cycles + 2 }) ∧
    (s.depth = 0 →
      exec .ret s = .fault (.stackUnderflow s.pc) ∧
      exec .retsk s = .fault (.stackUnderflow s.pc))

/-- A subroutine that keeps the stack returns to the word after its CALL by RET, and to the word
after that by RETSK (R192, R193, R194). That CALL saves pc + 1 is the spec's decision D2 (log 22),
that RETSK folds its skip into one `exec` its D13 (R160, log 15), the wrap its D4 (log 23). -/
def Obligations.CallThenReturn : Prop :=
  ∀ (addr : BitVec 11) (s t u : State), exec (.call addr) s = .next t →
    u.asr = t.asr → u.depth = t.depth →
    (∃ v, exec .ret u = .next v ∧ v.pc.toNat = (s.pc.toNat + 1) % 512 ∧ v.depth = s.depth) ∧
    (∃ v, exec .retsk u = .next v ∧ v.pc.toNat = (s.pc.toNat + 2) % 512 ∧ v.depth = s.depth)

/-! ### STOP, HALT, NOP (45_others.md) -/

/-- R200: `NOP` changes the pc only; the count `cycles` is the model's own (R289, log 17). -/
def Obligations.NopEffect : Prop :=
  ∀ s : State,
    encode .nop = 0x3CF0 ∧
    exec .nop s = .next { s with
      pc := BitVec.ofNat 9 ((s.pc.toNat + 1) % 512), cycles := s.cycles + 1 }

/-- R201: `HALT h`: 0000B halts; 0001B halts if P0B0 is low and is a NOP if it is high; any other
operand faults (the spec's decisions D7, D23; log 18, 29). -/
def Obligations.HaltEffect : Prop :=
  ∀ (h : Nibble) (s : State),
    encode (.halt h) = BitVec.ofNat 16 (0x3BF0 + h.toNat) ∧
    (h = 0 → exec (.halt h) s = .next { s with
      mode := .halt false, pc := s.pc + 1, cycles := s.cycles + 1 }) ∧
    (h = 1 → pinLevel s .p0b0 = false → exec (.halt h) s = .next { s with
      mode := .halt true, pc := s.pc + 1, cycles := s.cycles + 1 }) ∧
    (h = 1 → pinLevel s .p0b0 = true → exec (.halt h) s = .next { s with
      pc := s.pc + 1, cycles := s.cycles + 1 }) ∧
    (2 ≤ h.toNat → exec (.halt h) s =
      .fault (.badStandbyOperand s.pc (BitVec.ofNat 16 (0x3BF0 + h.toNat))))

/-- R202: `STOP s`: 0000B initialises pc, flags, port modes and stack, keeps data memory and
latches, and stops; 0001B stops if P0B1 is low and is a NOP if it is high; any other operand
faults (the spec's decisions D7, D24; log 18, 30). -/
def Obligations.StopEffect : Prop :=
  ∀ (c : Nibble) (s : State),
    encode (.stop c) = BitVec.ofNat 16 (0x3AF0 + c.toNat) ∧
    (c = 0 → exec (.stop c) s = .next { s with
      mode := .stop false, pc := 0, bcd := false, cmp := false, cy := false, z := false,
      out0B := false, out0C := false, out0D := false, depth := 0, cycles := s.cycles + 1 }) ∧
    (c = 1 → pinLevel s .p0b1 = false → exec (.stop c) s = .next { s with
      mode := .stop true, pc := s.pc + 1, cycles := s.cycles + 1 }) ∧
    (c = 1 → pinLevel s .p0b1 = true → exec (.stop c) s = .next { s with
      pc := s.pc + 1, cycles := s.cycles + 1 }) ∧
    (2 ≤ c.toNat → exec (.stop c) s =
      .fault (.badStandbyOperand s.pc (BitVec.ofNat 16 (0x3AF0 + c.toNat))))

/-! ### The step, standby and reset (70_reset_and_hazards.md, 60_exceptions.md) -/

/-- A step out of reset and standby runs the decoded instruction, then takes the next pin sample. -/
def Obligations.StepRunsFetchedInstruction : Prop :=
  ∀ (s : State) (w : ProgWord) (i : Instr), resetLevel s = true → s.mode = .operating →
    programWord s.rom s.pc = some w → decode w = .ok i →
    (∀ t, exec i s = .next t →
      step s = .next { t with inputs := t.inputs.tail, ticks := t.ticks + 1 }) ∧
    (∀ f, exec i s = .fault f → step s = .fault f)

/-- An instruction placed by `withFetchWord` is the one the next step runs, from every state. -/
def Obligations.PlacedInstructionRuns : Prop :=
  ∀ (s : State) (i : Instr), Runs (s.withFetchWord 16 (encode i).toNat) i

/-- R272, R42: a low RESET initialises pc, PSWORD, port modes and stack; out of a standby mode it
retains data memory and latches, out of operation no nibble of data memory stays defined (R275,
log 13); while it stays low nothing more happens. -/
def Obligations.ResetEntry : Prop :=
  ∀ s : State, resetLevel s = false →
    (s.mode ≠ .resetHeld → ∃ t, step s = .next t ∧ Initialised t ∧ t.mode = .resetHeld ∧
      t.rom = s.rom ∧ t.chip = s.chip ∧
      (s.mode = .operating → ∀ k : Fin 16, t.defined[k] = false) ∧
      ((∃ x, s.mode = .halt x ∨ s.mode = .stop x) →
        t.ram = s.ram ∧ t.defined = s.defined ∧ t.latch0B = s.latch0B ∧ t.latch0C = s.latch0C ∧
        t.latch0D = s.latch0D)) ∧
    (s.mode = .resetHeld →
      step s = .next { s with inputs := s.inputs.tail, ticks := s.ticks + 1 })

/-- R271: when RESET goes high the machine operates, and the first instruction is the word at 000H:
in a reachable held reset the pc is 000H, and the next step with RESET high runs that word. -/
def Obligations.ResetRelease : Prop :=
  ∀ s : State, Inv s → resetLevel s = true → s.mode = .resetHeld →
    ∃ t, step s = .next t ∧
      t = { s with mode := .operating, inputs := s.inputs.tail, ticks := s.ticks + 1 } ∧
      t.pc = 0 ∧
      (∀ i, resetLevel t = true → (programWord s.rom 0).map decode = some (.ok i) → Runs t i)

/-- R257, R260, R261: with RESET high a standby mode changes nothing but its own release: Halt(1)
by P0B0 high, Stop(1) by P0B1 high; Halt(0) and Stop(0) ignore the pins. That the eight-clock wait
of Stop(1) lies inside the step is the model's choice (log 16, decision D14), as are the pin sample
and the tick counter (log 9). -/
def Obligations.StandbyAndRelease : Prop :=
  ∀ s : State, resetLevel s = true →
    (s.mode = .halt false ∨ s.mode = .stop false ∨
      (s.mode = .halt true ∧ pinLevel s .p0b0 = false) ∨
      (s.mode = .stop true ∧ pinLevel s .p0b1 = false) →
      step s = .next { s with inputs := s.inputs.tail, ticks := s.ticks + 1 }) ∧
    ((s.mode = .halt true ∧ pinLevel s .p0b0 = true) ∨
      (s.mode = .stop true ∧ pinLevel s .p0b1 = true) →
      step s =
        .next { s with mode := .operating, inputs := s.inputs.tail, ticks := s.ticks + 1 })

/-- R258: `STOP 0000B` followed by a reset restarts the program at 000H with data memory and
latches as they were. -/
def Obligations.StopThenResetRestarts : Prop :=
  ∀ s : State, Runs s (.stop 0) →
    ∃ t, step s = .next t ∧ t.mode = .stop false ∧ Initialised t ∧
      (resetLevel t = false → ∃ u, step t = .next u ∧ u.mode = .resetHeld ∧
        (resetLevel u = true → ∃ v, step u = .next v ∧ v.mode = .operating ∧ Initialised v ∧
          v.ram = s.ram ∧ v.defined = s.defined ∧ v.latch0B = s.latch0B ∧ v.latch0C = s.latch0C ∧
          v.latch0D = s.latch0D))

/-- R43: the values the spec gives for reset. -/
def Obligations.ResetStateValues : Prop :=
  State.reset.pc = 0 ∧ State.reset.bcd = false ∧ State.reset.cmp = false ∧
  State.reset.cy = false ∧ State.reset.z = false ∧ State.reset.out0B = false ∧
  State.reset.out0C = false ∧ State.reset.out0D = false ∧ State.reset.depth = 0 ∧
  State.reset.mode = .operating ∧ ∀ k : Fin 16, State.reset.defined[k] = false

/-- The end of a program by 92_eei_decisions.md D15: at a BR to itself, with the environment silent
and a pull-up on RESET, no number of steps reaches a fault. -/
def Obligations.SelfBranchNeverFaults : Prop :=
  ∀ s : State, AtSelfBranch s → s.inputs = [] → s.chip.optReset = .pullUp →
    ∀ n, faultFree n s

/-! ### Frames -/

/-- Every data-memory address but the destination reads as before, and every byte of program memory
too, for every instruction but STOP; 7FH, whose flags an instruction may set, is `FlagFrame`'s.
The destination is computed by `destination`: `regAddr r` for a register, `m` for a memory form,
none for an instruction that stores nothing. For a port this holds within one pin sample (log 9,
16); for an unmapped address it is the model's choice that the free value depends on tick and
address alone (decision D1, log 12). -/
def Obligations.MemoryFrame : Prop :=
  ∀ (i : Instr) (s t : State), exec i s = .next t → (∀ c, i ≠ .stop c) →
    (∀ a : DataAddr, destination i ≠ some a → a ≠ 0x7F → dataRead t a = dataRead s a) ∧
    (∀ a : Nat, Memory.read a t.rom = Memory.read a s.rom)

/-- A flag changes only by the instructions the spec names for it or by a store to its address
(10_state.md R30–R33); STOP has its own statement. -/
def Obligations.FlagFrame : Prop :=
  ∀ (i : Instr) (s t : State), exec i s = .next t → (∀ c, i ≠ .stop c) →
    (t.bcd ≠ s.bcd → destination i = some 0x7E) ∧
    (t.cmp ≠ s.cmp → destination i = some 0x7F ∨ isBitTest i) ∧
    (t.cy ≠ s.cy → destination i = some 0x7F ∨ isArithmetic i = true ∨ ∃ r, i = .rorc r) ∧
    (t.z ≠ s.z → destination i = some 0x7F ∨ isArithmetic i = true)

/-- The special registers: the stack changes only by CALL, RET, RETSK (and STOP for its depth), a
port's latch and mode only by a store to its port register (and STOP for the mode), a nibble's
defined-bit only from 0 to 1 by a store to it (R275, log 13), the run mode only by HALT and STOP; the
program, the chip and the inputs never change. -/
def Obligations.SpecialRegisterFrame : Prop :=
  ∀ (i : Instr) (s t : State), exec i s = .next t →
    (t.asr ≠ s.asr → ∃ a, i = .call a) ∧
    (t.depth ≠ s.depth → (∃ a, i = .call a) ∨ i = .ret ∨ i = .retsk ∨ ∃ c, i = .stop c) ∧
    (t.latch0B ≠ s.latch0B → destination i = some 0x71) ∧
    (t.latch0C ≠ s.latch0C → destination i = some 0x72) ∧
    (t.latch0D ≠ s.latch0D → destination i = some 0x73) ∧
    (t.out0B ≠ s.out0B → destination i = some 0x71 ∨ ∃ c, i = .stop c) ∧
    (t.out0C ≠ s.out0C → destination i = some 0x72 ∨ ∃ c, i = .stop c) ∧
    (t.out0D ≠ s.out0D → destination i = some 0x73 ∨ ∃ c, i = .stop c) ∧
    (∀ k : Fin 16, t.defined[k] ≠ s.defined[k] →
      t.defined[k] = true ∧ destination i = some (BitVec.ofNat 7 k)) ∧
    (t.mode ≠ s.mode → ∃ c, i = .halt c ∨ i = .stop c) ∧
    t.rom = s.rom ∧ t.chip = s.chip ∧ t.inputs = s.inputs ∧ t.ticks = s.ticks

/-- R22, R190, R258, R285: where the pc goes and in how many cycles. An instruction other than BR,
CALL, RET, RETSK and STOP advances the pc by one modulo 512, a taken skip by two; BR and CALL load
their operand, RET loads ASR, RETSK ASR + 1; `STOP 0000B` clears the pc, every other STOP advances
it. That a taken skip, RETSK's too, lies inside one `exec` is the spec's decision D13 (R160, log
15), the wrap its D4 (log 23), the moment of `STOP 0000B` its D24 (log 30); `cycles` is the model's
own count (log 17). -/
def Obligations.SequencingAndCycles : Prop :=
  ∀ (i : Instr) (s t : State), exec i s = .next t →
    ((∀ c, i ≠ .stop c) → ¬ loadsPc i →
      (t.pc.toNat = (s.pc.toNat + 1) % 512 ∧ t.cycles = s.cycles + 1) ∨
      (isSkip i ∧ t.pc.toNat = (s.pc.toNat + 2) % 512 ∧ t.cycles = s.cycles + 2)) ∧
    (∀ a, i = .br a ∨ i = .call a → t.pc.toNat = a.toNat ∧ t.cycles = s.cycles + 1) ∧
    (i = .ret → t.pc = s.asr ∧ t.cycles = s.cycles + 1) ∧
    (i = .retsk → t.pc.toNat = (s.asr.toNat + 1) % 512 ∧ t.cycles = s.cycles + 2) ∧
    (i = .stop 0 → t.pc = 0 ∧ t.cycles = s.cycles + 1) ∧
    (∀ c, i = .stop c → c ≠ 0 →
      t.pc.toNat = (s.pc.toNat + 1) % 512 ∧ t.cycles = s.cycles + 1)

/-! ### The whole machine -/

/-- Every step keeps the invariant: program memory canonical, and a held reset or `STOP 0000B` keeps
the machine initialised. -/
def Obligations.StepKeepsInvariant : Prop :=
  ∀ s t : State, Inv s → step s = .next t → Inv t

/-- The reset state meets the invariant. -/
def Obligations.ResetMeetsInvariant : Prop := Inv State.reset

/-- No step writes program memory or changes the chip's parameters (20_memory.md R80, 10_state.md
R41). -/
def Obligations.ProgramAndChipFixed : Prop :=
  ∀ s t : State, step s = .next t → t.rom = s.rom ∧ t.chip = s.chip

/-- Program memory is not data (20_memory.md R60): what an instruction does to everything else is
the same whatever the ROM holds. So a skipped word is never looked at (42_test_compare.md R160; the
folded skip is the spec's decision D13, log 15). -/
def Obligations.ProgramMemoryIsNotData : Prop :=
  ∀ (i : Instr) (s : State) (rom : Memory),
    (∀ t, exec i s = .next t → exec i { s with rom := rom } = .next { t with rom := rom }) ∧
    (∀ f, exec i s = .fault f → exec i { s with rom := rom } = .fault f)

/-- Output mode is left only by a reset or by `STOP 0000B` (10_state.md R38). -/
def Obligations.OutputModeLeftOnlyByReset : Prop :=
  ∀ s t : State, step s = .next t →
    (s.out0B = true ∧ t.out0B = false) ∨ (s.out0C = true ∧ t.out0C = false) ∨
      (s.out0D = true ∧ t.out0D = false) →
    resetLevel s = false ∨ Runs s (.stop 0)

/-- R252: a standby mode is entered only by HALT or STOP, and left only by reset or, where operand
bit 0 was 1, by a high level on its own release pin. -/
def Obligations.StandbyEntryAndExit : Prop :=
  ∀ s t : State, step s = .next t →
    ((∃ x, t.mode = .halt x ∨ t.mode = .stop x) → t.mode ≠ s.mode →
      ∃ c, Runs s (.halt c) ∨ Runs s (.stop c)) ∧
    ((∃ x, s.mode = .halt x ∨ s.mode = .stop x) → t.mode ≠ s.mode →
      resetLevel s = false ∨ (s.mode = .halt true ∧ pinLevel s .p0b0 = true) ∨
        (s.mode = .stop true ∧ pinLevel s .p0b1 = true))

/-- An output latch of a port in input mode is never observable (10_state.md R45): two states that
differ only in such latches step to outcomes that differ only in such latches. -/
def Obligations.InputModeLatchUnobservable : Prop :=
  ∀ s t : State, hideLatches s = hideLatches t →
    hideOutcome (step s) = hideOutcome (step t)

/-- R231: every model fault records the pc of its instruction and arises only under its own
condition, with RESET high and the machine operating. `romNotProgrammed` is the model's own
(assumption 2). -/
def Obligations.FaultsOnlyAsListed : Prop :=
  ∀ (s : State) (f : Fault), step s = .fault f →
    resetLevel s = true ∧ s.mode = .operating ∧ f.pc = s.pc ∧
    (∀ p w, f = .illegalInstruction p w →
      programWord s.rom s.pc = some w ∧ ∀ i, decode w ≠ .ok i) ∧
    (∀ p w, f = .badBranchOperand p w → programWord s.rom s.pc = some w ∧
      ∃ addr : BitVec 11, 512 ≤ addr.toNat ∧ (Runs s (.br addr) ∨ Runs s (.call addr))) ∧
    (∀ p w, f = .badStandbyOperand p w → programWord s.rom s.pc = some w ∧
      ∃ c : Nibble, 2 ≤ c.toNat ∧ (Runs s (.halt c) ∨ Runs s (.stop c))) ∧
    (∀ p a, f = .unimplementedDataAddress p a → s.chip.unmapped = .fault ∧
      ((0x10 ≤ a.toNat ∧ a.toNat ≤ 0x70) ∨ (0x74 ≤ a.toNat ∧ a.toNat ≤ 0x7D)) ∧
      ∃ i, Runs s i ∧ memOperand i = some a) ∧
    (∀ p a, f = .undefinedRead p a → s.chip.ramReset = .faultOnRead ∧
      (∃ k : Fin 16, a = BitVec.ofNat 7 k ∧ s.defined[k] = false) ∧
      ∃ i, Runs s i ∧ a ∈ operandReads i ∧ ∀ m, memOperand i = some m → accessible s m = true) ∧
    (∀ p, f = .stackOverflow p → s.depth = 1 ∧ ∃ addr, Runs s (.call addr)) ∧
    (∀ p, f = .stackUnderflow p → s.depth = 0 ∧ (Runs s .ret ∨ Runs s .retsk)) ∧
    (∀ p, f = .romNotProgrammed p → programWord s.rom s.pc = none)

/-- R275, R231, R235 (c): a nibble of data memory is not readable exactly under
`RAM_RESET_POLICY = fault_on_read` while it is not defined, and no other address is ever unreadable.
An instruction whose `m` is accessible faults `UndefinedRead` at the first address its pseudocode
reads that is not readable; under the default `any` every instruction with an accessible `m` has its
operands ready. The policy is the spec's decision D12, the order D18; that `r` is looked at before
`m` is read from the pseudocode (log 13). -/
def Obligations.UndefinedReadPolicy : Prop :=
  ∀ s : State,
    (∀ a : DataAddr, readable s a = false ↔
      s.chip.ramReset = .faultOnRead ∧ ∃ k : Fin 16, a = BitVec.ofNat 7 k ∧ s.defined[k] = false) ∧
    (∀ (i : Instr) (a : DataAddr), (∀ m, memOperand i = some m → accessible s m = true) →
      (operandReads i).find? (fun x => !readable s x) = some a →
      exec i s = .fault (.undefinedRead s.pc a)) ∧
    (∀ i : Instr, s.chip.ramReset = .any →
      (∀ m, memOperand i = some m → accessible s m = true) → operandsReady i s = true)
end

