-- ==== Sys2Proof/Laws/Encoding.lean ====
section
/-! SUPPORT. The fields of an encoded word. -/

namespace Sys2Proof

@[simp] theorem opField_encodeM (op : BitVec 5) (m : DataAddr) (lo : Nibble) :
    opField (encodeM op m lo) = op := by
  simp only [opField, encodeM]
  rw [BitVec.extractLsb'_append_eq_of_le (by decide),
    BitVec.extractLsb'_append_eq_of_le (by decide)]
  simp

@[simp] theorem mField_encodeM (op : BitVec 5) (m : DataAddr) (lo : Nibble) :
    mField (encodeM op m lo) = m := by
  simp only [mField, encodeM]
  rw [BitVec.extractLsb'_append_eq_of_le (by decide),
    BitVec.extractLsb'_append_eq_of_add_le (by decide)]
  simp

@[simp] theorem loField_encodeM (op : BitVec 5) (m : DataAddr) (lo : Nibble) :
    loField (encodeM op m lo) = lo := by
  simp only [loField, encodeM]
  rw [BitVec.extractLsb'_append_eq_of_add_le (by decide)]
  simp

@[simp] theorem opField_encodeA (op : BitVec 5) (addr : BitVec 11) :
    opField (encodeA op addr) = op := by
  simp only [opField, encodeA]
  rw [BitVec.extractLsb'_append_eq_of_le (by decide)]
  simp

@[simp] theorem addrField_encodeA (op : BitVec 5) (addr : BitVec 11) :
    addrField (encodeA op addr) = addr := by
  simp only [addrField, encodeA]
  rw [BitVec.extractLsb'_append_eq_of_add_le (by decide)]
  simp

@[simp] theorem opField_encodeX (fHi : BitVec 3) (fMid lo : Nibble) :
    opField (encodeX fHi fMid lo) = 0b00111#5 := by
  simp only [opField, encodeX]
  rw [BitVec.extractLsb'_append_eq_of_le (by decide),
    BitVec.extractLsb'_append_eq_of_le (by decide),
    BitVec.extractLsb'_append_eq_of_le (by decide)]
  simp

@[simp] theorem hiField_encodeX (fHi : BitVec 3) (fMid lo : Nibble) :
    hiField (encodeX fHi fMid lo) = fHi := by
  simp only [hiField, encodeX]
  rw [BitVec.extractLsb'_append_eq_of_le (by decide),
    BitVec.extractLsb'_append_eq_of_le (by decide),
    BitVec.extractLsb'_append_eq_of_add_le (by decide)]
  simp

@[simp] theorem midField_encodeX (fHi : BitVec 3) (fMid lo : Nibble) :
    midField (encodeX fHi fMid lo) = fMid := by
  simp only [midField, encodeX]
  rw [BitVec.extractLsb'_append_eq_of_le (by decide),
    BitVec.extractLsb'_append_eq_of_add_le (by decide)]
  simp

@[simp] theorem loField_encodeX (fHi : BitVec 3) (fMid lo : Nibble) :
    loField (encodeX fHi fMid lo) = lo := by
  simp only [loField, encodeX]
  rw [BitVec.extractLsb'_append_eq_of_add_le (by decide)]
  simp

end Sys2Proof
end

