-- ==== Sys2Proof/Laws/State.lean ====
section
/-! SUPPORT. One lemma per field per state update, all true by rfl, so that no proof unfolds a
record update. -/

namespace Sys2Proof.Machine

/-! ### `advancePc`: a sequential advance -/

@[simp] theorem advancePc_pc (s : State) : (advancePc s).pc = s.pc + 1 := rfl
@[simp] theorem advancePc_asr (s : State) : (advancePc s).asr = s.asr := rfl
@[simp] theorem advancePc_depth (s : State) : (advancePc s).depth = s.depth := rfl
@[simp] theorem advancePc_ram (s : State) : (advancePc s).ram = s.ram := rfl
@[simp] theorem advancePc_defined (s : State) : (advancePc s).defined = s.defined := rfl
@[simp] theorem advancePc_bcd (s : State) : (advancePc s).bcd = s.bcd := rfl
@[simp] theorem advancePc_cmp (s : State) : (advancePc s).cmp = s.cmp := rfl
@[simp] theorem advancePc_cy (s : State) : (advancePc s).cy = s.cy := rfl
@[simp] theorem advancePc_z (s : State) : (advancePc s).z = s.z := rfl
@[simp] theorem advancePc_latch0B (s : State) : (advancePc s).latch0B = s.latch0B := rfl
@[simp] theorem advancePc_latch0C (s : State) : (advancePc s).latch0C = s.latch0C := rfl
@[simp] theorem advancePc_latch0D (s : State) : (advancePc s).latch0D = s.latch0D := rfl
@[simp] theorem advancePc_out0B (s : State) : (advancePc s).out0B = s.out0B := rfl
@[simp] theorem advancePc_out0C (s : State) : (advancePc s).out0C = s.out0C := rfl
@[simp] theorem advancePc_out0D (s : State) : (advancePc s).out0D = s.out0D := rfl
@[simp] theorem advancePc_mode (s : State) : (advancePc s).mode = s.mode := rfl
@[simp] theorem advancePc_rom (s : State) : (advancePc s).rom = s.rom := rfl
@[simp] theorem advancePc_chip (s : State) : (advancePc s).chip = s.chip := rfl
@[simp] theorem advancePc_inputs (s : State) : (advancePc s).inputs = s.inputs := rfl
@[simp] theorem advancePc_ticks (s : State) : (advancePc s).ticks = s.ticks := rfl
@[simp] theorem advancePc_cycles (s : State) : (advancePc s).cycles = s.cycles + 1 := rfl

/-! ### `jumpTo`: a jump -/

@[simp] theorem jumpTo_pc (s : State) (a : ProgAddr) : (jumpTo s a).pc = a := rfl
@[simp] theorem jumpTo_asr (s : State) (a : ProgAddr) : (jumpTo s a).asr = s.asr := rfl
@[simp] theorem jumpTo_depth (s : State) (a : ProgAddr) : (jumpTo s a).depth = s.depth := rfl
@[simp] theorem jumpTo_ram (s : State) (a : ProgAddr) : (jumpTo s a).ram = s.ram := rfl
@[simp] theorem jumpTo_defined (s : State) (a : ProgAddr) : (jumpTo s a).defined = s.defined := rfl
@[simp] theorem jumpTo_bcd (s : State) (a : ProgAddr) : (jumpTo s a).bcd = s.bcd := rfl
@[simp] theorem jumpTo_cmp (s : State) (a : ProgAddr) : (jumpTo s a).cmp = s.cmp := rfl
@[simp] theorem jumpTo_cy (s : State) (a : ProgAddr) : (jumpTo s a).cy = s.cy := rfl
@[simp] theorem jumpTo_z (s : State) (a : ProgAddr) : (jumpTo s a).z = s.z := rfl
@[simp] theorem jumpTo_latch0B (s : State) (a : ProgAddr) : (jumpTo s a).latch0B = s.latch0B := rfl
@[simp] theorem jumpTo_latch0C (s : State) (a : ProgAddr) : (jumpTo s a).latch0C = s.latch0C := rfl
@[simp] theorem jumpTo_latch0D (s : State) (a : ProgAddr) : (jumpTo s a).latch0D = s.latch0D := rfl
@[simp] theorem jumpTo_out0B (s : State) (a : ProgAddr) : (jumpTo s a).out0B = s.out0B := rfl
@[simp] theorem jumpTo_out0C (s : State) (a : ProgAddr) : (jumpTo s a).out0C = s.out0C := rfl
@[simp] theorem jumpTo_out0D (s : State) (a : ProgAddr) : (jumpTo s a).out0D = s.out0D := rfl
@[simp] theorem jumpTo_mode (s : State) (a : ProgAddr) : (jumpTo s a).mode = s.mode := rfl
@[simp] theorem jumpTo_rom (s : State) (a : ProgAddr) : (jumpTo s a).rom = s.rom := rfl
@[simp] theorem jumpTo_chip (s : State) (a : ProgAddr) : (jumpTo s a).chip = s.chip := rfl
@[simp] theorem jumpTo_inputs (s : State) (a : ProgAddr) : (jumpTo s a).inputs = s.inputs := rfl
@[simp] theorem jumpTo_ticks (s : State) (a : ProgAddr) : (jumpTo s a).ticks = s.ticks := rfl
@[simp] theorem jumpTo_cycles (s : State) (a : ProgAddr) : (jumpTo s a).cycles = s.cycles + 1 := rfl

/-! ### `initialise`: initialisation -/

@[simp] theorem initialise_pc (s : State) : (initialise s).pc = 0 := rfl
@[simp] theorem initialise_asr (s : State) : (initialise s).asr = s.asr := rfl
@[simp] theorem initialise_depth (s : State) : (initialise s).depth = 0 := rfl
@[simp] theorem initialise_ram (s : State) : (initialise s).ram = s.ram := rfl
@[simp] theorem initialise_defined (s : State) : (initialise s).defined = s.defined := rfl
@[simp] theorem initialise_bcd (s : State) : (initialise s).bcd = false := rfl
@[simp] theorem initialise_cmp (s : State) : (initialise s).cmp = false := rfl
@[simp] theorem initialise_cy (s : State) : (initialise s).cy = false := rfl
@[simp] theorem initialise_z (s : State) : (initialise s).z = false := rfl
@[simp] theorem initialise_latch0B (s : State) : (initialise s).latch0B = s.latch0B := rfl
@[simp] theorem initialise_latch0C (s : State) : (initialise s).latch0C = s.latch0C := rfl
@[simp] theorem initialise_latch0D (s : State) : (initialise s).latch0D = s.latch0D := rfl
@[simp] theorem initialise_out0B (s : State) : (initialise s).out0B = false := rfl
@[simp] theorem initialise_out0C (s : State) : (initialise s).out0C = false := rfl
@[simp] theorem initialise_out0D (s : State) : (initialise s).out0D = false := rfl
@[simp] theorem initialise_mode (s : State) : (initialise s).mode = s.mode := rfl
@[simp] theorem initialise_rom (s : State) : (initialise s).rom = s.rom := rfl
@[simp] theorem initialise_chip (s : State) : (initialise s).chip = s.chip := rfl
@[simp] theorem initialise_inputs (s : State) : (initialise s).inputs = s.inputs := rfl
@[simp] theorem initialise_ticks (s : State) : (initialise s).ticks = s.ticks := rfl
@[simp] theorem initialise_cycles (s : State) : (initialise s).cycles = s.cycles := rfl

/-! ### `undefineData`: column (A) of Table 8-1 -/

@[simp] theorem undefineData_pc (s : State) : (undefineData s).pc = s.pc := rfl
@[simp] theorem undefineData_asr (s : State) : (undefineData s).asr = s.asr := rfl
@[simp] theorem undefineData_depth (s : State) : (undefineData s).depth = s.depth := rfl
@[simp] theorem undefineData_ram (s : State) : (undefineData s).ram = Config.undefinedRam s.ticks := rfl
@[simp] theorem undefineData_defined (s : State) : (undefineData s).defined = Vector.replicate 16 false := rfl
@[simp] theorem undefineData_bcd (s : State) : (undefineData s).bcd = s.bcd := rfl
@[simp] theorem undefineData_cmp (s : State) : (undefineData s).cmp = s.cmp := rfl
@[simp] theorem undefineData_cy (s : State) : (undefineData s).cy = s.cy := rfl
@[simp] theorem undefineData_z (s : State) : (undefineData s).z = s.z := rfl
@[simp] theorem undefineData_latch0B (s : State) : (undefineData s).latch0B = Config.undefinedLatch0B s.ticks := rfl
@[simp] theorem undefineData_latch0C (s : State) : (undefineData s).latch0C = Config.undefinedLatch0C s.ticks := rfl
@[simp] theorem undefineData_latch0D (s : State) : (undefineData s).latch0D = Config.undefinedLatch0D s.ticks := rfl
@[simp] theorem undefineData_out0B (s : State) : (undefineData s).out0B = s.out0B := rfl
@[simp] theorem undefineData_out0C (s : State) : (undefineData s).out0C = s.out0C := rfl
@[simp] theorem undefineData_out0D (s : State) : (undefineData s).out0D = s.out0D := rfl
@[simp] theorem undefineData_mode (s : State) : (undefineData s).mode = s.mode := rfl
@[simp] theorem undefineData_rom (s : State) : (undefineData s).rom = s.rom := rfl
@[simp] theorem undefineData_chip (s : State) : (undefineData s).chip = s.chip := rfl
@[simp] theorem undefineData_inputs (s : State) : (undefineData s).inputs = s.inputs := rfl
@[simp] theorem undefineData_ticks (s : State) : (undefineData s).ticks = s.ticks := rfl
@[simp] theorem undefineData_cycles (s : State) : (undefineData s).cycles = s.cycles := rfl

/-! ### `holdReset`: entering reset -/

@[simp] theorem holdReset_pc (s : State) : (holdReset s).pc = 0 := rfl
@[simp] theorem holdReset_asr (s : State) : (holdReset s).asr = Config.unspecifiedAsr s.ticks := rfl
@[simp] theorem holdReset_depth (s : State) : (holdReset s).depth = 0 := rfl
@[simp] theorem holdReset_ram (s : State) : (holdReset s).ram = s.ram := rfl
@[simp] theorem holdReset_defined (s : State) : (holdReset s).defined = s.defined := rfl
@[simp] theorem holdReset_bcd (s : State) : (holdReset s).bcd = false := rfl
@[simp] theorem holdReset_cmp (s : State) : (holdReset s).cmp = false := rfl
@[simp] theorem holdReset_cy (s : State) : (holdReset s).cy = false := rfl
@[simp] theorem holdReset_z (s : State) : (holdReset s).z = false := rfl
@[simp] theorem holdReset_latch0B (s : State) : (holdReset s).latch0B = s.latch0B := rfl
@[simp] theorem holdReset_latch0C (s : State) : (holdReset s).latch0C = s.latch0C := rfl
@[simp] theorem holdReset_latch0D (s : State) : (holdReset s).latch0D = s.latch0D := rfl
@[simp] theorem holdReset_out0B (s : State) : (holdReset s).out0B = false := rfl
@[simp] theorem holdReset_out0C (s : State) : (holdReset s).out0C = false := rfl
@[simp] theorem holdReset_out0D (s : State) : (holdReset s).out0D = false := rfl
@[simp] theorem holdReset_mode (s : State) : (holdReset s).mode = .resetHeld := rfl
@[simp] theorem holdReset_rom (s : State) : (holdReset s).rom = s.rom := rfl
@[simp] theorem holdReset_chip (s : State) : (holdReset s).chip = s.chip := rfl
@[simp] theorem holdReset_inputs (s : State) : (holdReset s).inputs = s.inputs := rfl
@[simp] theorem holdReset_ticks (s : State) : (holdReset s).ticks = s.ticks := rfl
@[simp] theorem holdReset_cycles (s : State) : (holdReset s).cycles = s.cycles := rfl

/-! ### `nextSample`: the end of a step -/

@[simp] theorem nextSample_pc (s : State) : (nextSample s).pc = s.pc := rfl
@[simp] theorem nextSample_asr (s : State) : (nextSample s).asr = s.asr := rfl
@[simp] theorem nextSample_depth (s : State) : (nextSample s).depth = s.depth := rfl
@[simp] theorem nextSample_ram (s : State) : (nextSample s).ram = s.ram := rfl
@[simp] theorem nextSample_defined (s : State) : (nextSample s).defined = s.defined := rfl
@[simp] theorem nextSample_bcd (s : State) : (nextSample s).bcd = s.bcd := rfl
@[simp] theorem nextSample_cmp (s : State) : (nextSample s).cmp = s.cmp := rfl
@[simp] theorem nextSample_cy (s : State) : (nextSample s).cy = s.cy := rfl
@[simp] theorem nextSample_z (s : State) : (nextSample s).z = s.z := rfl
@[simp] theorem nextSample_latch0B (s : State) : (nextSample s).latch0B = s.latch0B := rfl
@[simp] theorem nextSample_latch0C (s : State) : (nextSample s).latch0C = s.latch0C := rfl
@[simp] theorem nextSample_latch0D (s : State) : (nextSample s).latch0D = s.latch0D := rfl
@[simp] theorem nextSample_out0B (s : State) : (nextSample s).out0B = s.out0B := rfl
@[simp] theorem nextSample_out0C (s : State) : (nextSample s).out0C = s.out0C := rfl
@[simp] theorem nextSample_out0D (s : State) : (nextSample s).out0D = s.out0D := rfl
@[simp] theorem nextSample_mode (s : State) : (nextSample s).mode = s.mode := rfl
@[simp] theorem nextSample_rom (s : State) : (nextSample s).rom = s.rom := rfl
@[simp] theorem nextSample_chip (s : State) : (nextSample s).chip = s.chip := rfl
@[simp] theorem nextSample_inputs (s : State) : (nextSample s).inputs = s.inputs.tail := rfl
@[simp] theorem nextSample_ticks (s : State) : (nextSample s).ticks = s.ticks + 1 := rfl
@[simp] theorem nextSample_cycles (s : State) : (nextSample s).cycles = s.cycles := rfl

/-! ### `setReg`: a store to a general register -/

@[simp] theorem setReg_pc (s : State) (r : RegNum) (v : Nibble) :
    (setReg s r v).pc = s.pc := rfl
@[simp] theorem setReg_asr (s : State) (r : RegNum) (v : Nibble) :
    (setReg s r v).asr = s.asr := rfl
@[simp] theorem setReg_depth (s : State) (r : RegNum) (v : Nibble) :
    (setReg s r v).depth = s.depth := rfl
@[simp] theorem setReg_bcd (s : State) (r : RegNum) (v : Nibble) :
    (setReg s r v).bcd = s.bcd := rfl
@[simp] theorem setReg_cmp (s : State) (r : RegNum) (v : Nibble) :
    (setReg s r v).cmp = s.cmp := rfl
@[simp] theorem setReg_cy (s : State) (r : RegNum) (v : Nibble) :
    (setReg s r v).cy = s.cy := rfl
@[simp] theorem setReg_z (s : State) (r : RegNum) (v : Nibble) :
    (setReg s r v).z = s.z := rfl
@[simp] theorem setReg_latch0B (s : State) (r : RegNum) (v : Nibble) :
    (setReg s r v).latch0B = s.latch0B := rfl
@[simp] theorem setReg_latch0C (s : State) (r : RegNum) (v : Nibble) :
    (setReg s r v).latch0C = s.latch0C := rfl
@[simp] theorem setReg_latch0D (s : State) (r : RegNum) (v : Nibble) :
    (setReg s r v).latch0D = s.latch0D := rfl
@[simp] theorem setReg_out0B (s : State) (r : RegNum) (v : Nibble) :
    (setReg s r v).out0B = s.out0B := rfl
@[simp] theorem setReg_out0C (s : State) (r : RegNum) (v : Nibble) :
    (setReg s r v).out0C = s.out0C := rfl
@[simp] theorem setReg_out0D (s : State) (r : RegNum) (v : Nibble) :
    (setReg s r v).out0D = s.out0D := rfl
@[simp] theorem setReg_mode (s : State) (r : RegNum) (v : Nibble) :
    (setReg s r v).mode = s.mode := rfl
@[simp] theorem setReg_rom (s : State) (r : RegNum) (v : Nibble) :
    (setReg s r v).rom = s.rom := rfl
@[simp] theorem setReg_chip (s : State) (r : RegNum) (v : Nibble) :
    (setReg s r v).chip = s.chip := rfl
@[simp] theorem setReg_inputs (s : State) (r : RegNum) (v : Nibble) :
    (setReg s r v).inputs = s.inputs := rfl
@[simp] theorem setReg_ticks (s : State) (r : RegNum) (v : Nibble) :
    (setReg s r v).ticks = s.ticks := rfl
@[simp] theorem setReg_cycles (s : State) (r : RegNum) (v : Nibble) :
    (setReg s r v).cycles = s.cycles := rfl
@[simp] theorem setReg_ram (s : State) (r : RegNum) (v : Nibble) :
    (setReg s r v).ram = s.ram.set r.toNat v r.isLt := rfl
@[simp] theorem setReg_defined (s : State) (r : RegNum) (v : Nibble) :
    (setReg s r v).defined = s.defined.set r.toNat true r.isLt := rfl

end Sys2Proof.Machine
end

