-- ==== Sys2Proof/Laws/Memory.lean ====
section
/-! SUPPORT. Program memory: read after write, and every operation keeps the canonical form. -/

namespace Sys2Proof.Machine

theorem Memory.read_write_same (a : Nat) (b : Byte) (m : Memory) :
    Memory.read a (Memory.write a b m) = some b := by
  induction m with
  | nil => simp [Memory.write, Memory.read]
  | cons c rest ih =>
    obtain ⟨k, v⟩ := c
    by_cases h1 : a < k
    · simp [Memory.write, Memory.read, h1]
    · by_cases h2 : a = k
      · simp [Memory.write, Memory.read, h2]
      · simp [Memory.write, Memory.read, h1, h2, ih]

theorem Memory.read_write_other (a a' : Nat) (b : Byte) (m : Memory) (h : a' ≠ a) :
    Memory.read a' (Memory.write a b m) = Memory.read a' m := by
  induction m with
  | nil => simp [Memory.write, Memory.read, h]
  | cons c rest ih =>
    obtain ⟨k, v⟩ := c
    by_cases h1 : a < k
    · simp [Memory.write, Memory.read, h1, h]
    · by_cases h2 : a = k
      · subst h2
        simp [Memory.write, Memory.read, h]
      · simp only [Memory.write, Memory.read, h1, h2, if_false, ih]

theorem Memory.risesFrom_write (a : Nat) (b : Byte) (m : Memory) (lo : Nat)
    (hlo : lo ≤ a) (ha : a < 1024) (h : Memory.risesFrom lo m = true) :
    Memory.risesFrom lo (Memory.write a b m) = true := by
  induction m generalizing lo with
  | nil => simp [Memory.write, Memory.risesFrom, hlo, ha]
  | cons c rest ih =>
    obtain ⟨k, v⟩ := c
    simp only [Memory.risesFrom, Bool.and_eq_true, decide_eq_true_eq] at h
    obtain ⟨⟨hk, hk'⟩, hrest⟩ := h
    by_cases h1 : a < k
    · simp only [Memory.write, h1, if_true, Memory.risesFrom, Bool.and_eq_true, decide_eq_true_eq]
      exact ⟨⟨hlo, ha⟩, ⟨by omega, hk'⟩, hrest⟩
    · by_cases h2 : a = k
      · simp only [Memory.write, h2, if_true, Memory.risesFrom, Bool.and_eq_true,
          decide_eq_true_eq, lt_irrefl, if_false]
        exact ⟨⟨hk, hk'⟩, hrest⟩
      · simp only [Memory.write, h1, h2, if_false, Memory.risesFrom, Bool.and_eq_true,
          decide_eq_true_eq]
        exact ⟨⟨hk, hk'⟩, ih (k + 1) (by omega) hrest⟩

theorem Memory.wf_write (a : Nat) (b : Byte) (m : Memory) (ha : a < 1024)
    (h : Memory.wf m = true) : Memory.wf (Memory.write a b m) = true :=
  Memory.risesFrom_write a b m 0 (Nat.zero_le a) ha h

theorem wf_storeProgramWord (m : Memory) (a : ProgAddr) (w : ProgWord)
    (h : Memory.wf m = true) : Memory.wf (storeProgramWord m a w) = true := by
  have ha : a.toNat < 512 := a.isLt
  exact Memory.wf_write _ _ _ (by omega) (Memory.wf_write _ _ _ (by omega) h)

theorem programWord_storeProgramWord (m : Memory) (a : ProgAddr) (w : ProgWord) :
    programWord (storeProgramWord m a w) a = some w := by
  have hlo : Memory.read (2 * a.toNat) (storeProgramWord m a w) = some (w.extractLsb' 0 8) := by
    rw [storeProgramWord, Memory.read_write_other _ _ _ _ (by omega), Memory.read_write_same]
  have hhi : Memory.read (2 * a.toNat + 1) (storeProgramWord m a w)
      = some (w.extractLsb' 8 8) := by
    rw [storeProgramWord, Memory.read_write_same]
  have hw : (w.extractLsb' 8 8 ++ w.extractLsb' 0 8 : BitVec 16) = w := by
    rw [BitVec.extractLsb'_append_extractLsb'_eq_extractLsb' (by decide)]
    exact BitVec.extractLsb'_eq_self
  simp only [programWord, hlo, hhi]
  exact congrArg some hw

theorem reset_rom_wf : Memory.wf State.reset.rom = true := rfl

end Sys2Proof.Machine
end

