-- ==== Sys2Proof/Laws/Ops.lean ====
section
/-! SUPPORT. For each shared operation, once, what it can do: later proofs cite these and unfold
nothing. -/

namespace Sys2Proof.Machine

/-! ### Operand checks -/

theorem checked_of_accessible {s : State} {m : DataAddr} (h : accessible s m = true)
    (rest : Result) : checked s m rest = rest := by simp [checked, h]

theorem checked_of_not_accessible {s : State} {m : DataAddr} (h : accessible s m = false)
    (rest : Result) : checked s m rest = .fault (.unimplementedDataAddress s.pc m) := by
  simp [checked, h]

/-- A checked instruction that answers a next state had an accessible operand. -/
theorem checked_next {s t : State} {m : DataAddr} {rest : Result}
    (h : checked s m rest = .next t) : accessible s m = true ∧ rest = .next t := by
  unfold checked at h
  split at h
  · exact ⟨‹_›, h⟩
  · cases h

/-- A checked instruction that faults either faults on its address or in the rest. -/
theorem checked_fault {s : State} {m : DataAddr} {rest : Result} {f : Fault}
    (h : checked s m rest = .fault f) :
    (accessible s m = false ∧ f = .unimplementedDataAddress s.pc m) ∨
      (accessible s m = true ∧ rest = .fault f) := by
  unfold checked at h
  split at h
  · exact .inr ⟨‹_›, h⟩
  · rename_i hacc
    cases h
    exact .inl ⟨by simpa using hacc, rfl⟩

theorem reading_of_readable {s : State} {a : DataAddr} (h : readable s a = true)
    (rest : Result) : reading s a rest = rest := by simp [reading, h]

theorem reading_of_not_readable {s : State} {a : DataAddr} (h : readable s a = false)
    (rest : Result) : reading s a rest = .fault (.undefinedRead s.pc a) := by simp [reading, h]

/-- A read that went on found its nibble readable. -/
theorem reading_next {s t : State} {a : DataAddr} {rest : Result}
    (h : reading s a rest = .next t) : readable s a = true ∧ rest = .next t := by
  unfold reading at h
  split at h
  · exact ⟨‹_›, h⟩
  · cases h

/-- A read that faults either faults on its nibble or in the rest. -/
theorem reading_fault {s : State} {a : DataAddr} {rest : Result} {f : Fault}
    (h : reading s a rest = .fault f) :
    (readable s a = false ∧ f = .undefinedRead s.pc a) ∨
      (readable s a = true ∧ rest = .fault f) := by
  unfold reading at h
  split at h
  · exact .inr ⟨‹_›, h⟩
  · rename_i hr
    cases h
    exact .inl ⟨by simpa using hr, rfl⟩

/-- An instruction that reads `m` went on: its operand was accessible and readable. -/
theorem operandM_next {s t : State} {m : DataAddr} {rest : Result}
    (h : operandM s m rest = .next t) :
    accessible s m = true ∧ readable s m = true ∧ rest = .next t :=
  ⟨(checked_next h).1, reading_next (checked_next h).2⟩

/-- An instruction that reads `r` and `m` went on: both operands could be read. -/
theorem operandRM_next {s t : State} {r : RegNum} {m : DataAddr} {rest : Result}
    (h : operandRM s r m rest = .next t) :
    accessible s m = true ∧ readable s (regAddr r) = true ∧ readable s m = true ∧
      rest = .next t :=
  ⟨(checked_next h).1, (reading_next (checked_next h).2).1,
    reading_next (reading_next (checked_next h).2).2⟩

theorem operandM_of_ready {s : State} {m : DataAddr} (ha : accessible s m = true)
    (hm : readable s m = true) (rest : Result) : operandM s m rest = rest := by
  rw [operandM, checked_of_accessible ha, reading_of_readable hm]

theorem operandRM_of_ready {s : State} {r : RegNum} {m : DataAddr} (ha : accessible s m = true)
    (hr : readable s (regAddr r) = true) (hm : readable s m = true) (rest : Result) :
    operandRM s r m rest = rest := by
  rw [operandRM, checked_of_accessible ha, reading_of_readable hr, reading_of_readable hm]

/-- The ways an instruction that reads `r` and `m` can fault, in their order of precedence
(60_exceptions.md R235 (c)). -/
theorem operandRM_fault {s : State} {r : RegNum} {m : DataAddr} {rest : Result} {f : Fault}
    (h : operandRM s r m rest = .fault f) :
    (accessible s m = false ∧ f = .unimplementedDataAddress s.pc m) ∨
    (accessible s m = true ∧ readable s (regAddr r) = false ∧
      f = .undefinedRead s.pc (regAddr r)) ∨
    (accessible s m = true ∧ readable s (regAddr r) = true ∧ readable s m = false ∧
      f = .undefinedRead s.pc m) ∨ rest = .fault f := by
  rcases checked_fault h with h1 | ⟨ha, h1⟩
  · exact .inl h1
  · rcases reading_fault h1 with ⟨hr, hf⟩ | ⟨hr, h2⟩
    · exact .inr (.inl ⟨ha, hr, hf⟩)
    · rcases reading_fault h2 with ⟨hm, hf⟩ | ⟨-, h3⟩
      · exact .inr (.inr (.inl ⟨ha, hr, hm, hf⟩))
      · exact .inr (.inr (.inr h3))

/-- The ways an instruction that reads `m` can fault. -/
theorem operandM_fault {s : State} {m : DataAddr} {rest : Result} {f : Fault}
    (h : operandM s m rest = .fault f) :
    (accessible s m = false ∧ f = .unimplementedDataAddress s.pc m) ∨
    (accessible s m = true ∧ readable s m = false ∧ f = .undefinedRead s.pc m) ∨
      rest = .fault f := by
  rcases checked_fault h with h1 | ⟨ha, h1⟩
  · exact .inl h1
  · rcases reading_fault h1 with ⟨hm, hf⟩ | ⟨-, h2⟩
    · exact .inr (.inl ⟨ha, hm, hf⟩)
    · exact .inr (.inr h2)

/-! ### The data memory map -/

theorem locate_regAddr (r : RegNum) : locate (regAddr r) = .ram ⟨r.toNat, r.isLt⟩ := by
  have h : (regAddr r).toNat = r.toNat := by
    change (0b000#3 ++ r : BitVec (3 + 4)).toNat = r.toNat
    rw [BitVec.toNat_append]
    simp
  have hr : r.toNat < 16 := r.isLt
  simp [locate, h, hr]

theorem dataRead_regAddr (s : State) (r : RegNum) : dataRead s (regAddr r) = reg s r := by
  simp [dataRead, locate_regAddr, reg]

theorem dataWrite_regAddr (s : State) (r : RegNum) (v : Nibble) :
    dataWrite s (regAddr r) v = setReg s r v := by
  simp [dataWrite, locate_regAddr, setReg]

/-- A register holds what was stored in it. -/
@[simp] theorem reg_setReg (s : State) (r : RegNum) (v : Nibble) : reg (setReg s r v) r = v := by
  simp [reg, setReg]

/-- Every other register keeps its contents. -/
theorem reg_setReg_of_ne (s : State) {r q : RegNum} (v : Nibble) (h : r ≠ q) :
    reg (setReg s r v) q = reg s q := by
  have h' : r.toNat ≠ q.toNat := fun e => h (BitVec.eq_of_toNat_eq e)
  simp [reg, setReg, h']

/-- A register that has been stored to can be read (70_reset_and_hazards.md R275). -/
@[simp] theorem readable_setReg (s : State) (r : RegNum) (v : Nibble) :
    readable (setReg s r v) (regAddr r) = true := by
  simp [readable, locate_regAddr, setReg]

/-- A general register is readable unless the policy asks for a defined nibble and it is not one. -/
theorem readable_regAddr (s : State) (r : RegNum) :
    readable s (regAddr r) = (s.chip.ramReset == .any || s.defined[r.toNat]'r.isLt) := by
  simp [readable, locate_regAddr]

theorem accessible_regAddr (s : State) (r : RegNum) : accessible s (regAddr r) = true := by
  simp [accessible, locate_regAddr]

/-- The seven things a data write can do (20_memory.md R65). -/
theorem dataWrite_cases (s : State) (a : DataAddr) (v : Nibble) :
    (∃ i, locate a = .ram i ∧ dataWrite s a v =
      { s with ram := s.ram.set i v, defined := s.defined.set i true }) ∨
    (locate a = .port0B ∧
      dataWrite s a v = { s with latch0B := v.extractLsb' 0 3, out0B := true }) ∨
    (locate a = .port0C ∧ dataWrite s a v = { s with latch0C := v, out0C := true }) ∨
    (locate a = .port0D ∧ dataWrite s a v = { s with latch0D := v, out0D := true }) ∨
    (locate a = .bcdNibble ∧ dataWrite s a v = { s with bcd := v.getLsbD 0 }) ∨
    (locate a = .psw ∧
      dataWrite s a v = { s with cmp := v.getLsbD 3, cy := v.getLsbD 2, z := v.getLsbD 1 }) ∨
    (locate a = .unmapped ∧ dataWrite s a v = s) := by
  cases h : locate a <;> simp [dataWrite, h]

/-! A data write leaves everything outside the data memory map alone. -/

@[simp] theorem dataWrite_pc (s : State) (a : DataAddr) (v : Nibble) :
    (dataWrite s a v).pc = s.pc := by unfold dataWrite; split <;> rfl
@[simp] theorem dataWrite_asr (s : State) (a : DataAddr) (v : Nibble) :
    (dataWrite s a v).asr = s.asr := by unfold dataWrite; split <;> rfl
@[simp] theorem dataWrite_depth (s : State) (a : DataAddr) (v : Nibble) :
    (dataWrite s a v).depth = s.depth := by unfold dataWrite; split <;> rfl
@[simp] theorem dataWrite_mode (s : State) (a : DataAddr) (v : Nibble) :
    (dataWrite s a v).mode = s.mode := by unfold dataWrite; split <;> rfl
@[simp] theorem dataWrite_rom (s : State) (a : DataAddr) (v : Nibble) :
    (dataWrite s a v).rom = s.rom := by unfold dataWrite; split <;> rfl
@[simp] theorem dataWrite_chip (s : State) (a : DataAddr) (v : Nibble) :
    (dataWrite s a v).chip = s.chip := by unfold dataWrite; split <;> rfl
@[simp] theorem dataWrite_inputs (s : State) (a : DataAddr) (v : Nibble) :
    (dataWrite s a v).inputs = s.inputs := by unfold dataWrite; split <;> rfl
@[simp] theorem dataWrite_ticks (s : State) (a : DataAddr) (v : Nibble) :
    (dataWrite s a v).ticks = s.ticks := by unfold dataWrite; split <;> rfl
@[simp] theorem dataWrite_cycles (s : State) (a : DataAddr) (v : Nibble) :
    (dataWrite s a v).cycles = s.cycles := by unfold dataWrite; split <;> rfl

/-! ### Skips, commits, standby and reset -/

/-- A skip advances the pc by two, anything else by one; nothing else changes but the cycle count. -/
theorem skipIf_cases (s : State) (cond : Bool) :
    (cond = true ∧ skipIf s cond = { s with pc := s.pc + 1 + 1, cycles := s.cycles + 1 + 1 }) ∨
    (cond = false ∧ skipIf s cond = { s with pc := s.pc + 1, cycles := s.cycles + 1 }) := by
  cases cond
  · exact .inr ⟨rfl, rfl⟩
  · exact .inl ⟨rfl, rfl⟩

/-- With CMP = 1 an arithmetic commit changes CY and Z only; with CMP = 0 it stores last
(40_arithmetic.md R132). -/
theorem arithCommit_cases (s : State) (d : DataAddr) (r : Bool × Nibble) :
    (s.cmp = true ∧
      arithCommit s d r = { s with cy := r.1, z := if r.2 = 0 then s.z else false }) ∨
    (s.cmp = false ∧
      arithCommit s d r = dataWrite { s with cy := r.1, z := decide (r.2 = 0) } d r.2) := by
  cases h : s.cmp <;> simp [arithCommit, arithZ, h]

/-- A step in standby leaves the mode, or returns to operation on a high release pin. -/
theorem standbyStep_cases (s : State) :
    standbyStep s = s ∨
    (s.mode = .halt true ∧ pinLevel s .p0b0 = true ∧
      standbyStep s = { s with mode := .operating }) ∨
    (s.mode = .stop true ∧ pinLevel s .p0b1 = true ∧
      standbyStep s = { s with mode := .operating }) := by
  unfold standbyStep
  split
  · split
    · exact .inr (.inl ⟨‹_›, ‹_›, rfl⟩)
    · exact .inl rfl
  · split
    · exact .inr (.inr ⟨‹_›, ‹_›, rfl⟩)
    · exact .inl rfl
  all_goals exact .inl rfl

/-- The three things a low RESET does (70_reset_and_hazards.md R272). -/
theorem takeReset_cases (s : State) :
    (s.mode = .operating ∧ takeReset s = holdReset (undefineData s)) ∨
    ((∃ x, s.mode = .halt x ∨ s.mode = .stop x) ∧ takeReset s = holdReset s) ∨
    (s.mode = .resetHeld ∧ takeReset s = s) := by
  unfold takeReset
  split
  · exact .inl ⟨‹_›, rfl⟩
  · exact .inr (.inl ⟨⟨_, .inl ‹_›⟩, rfl⟩)
  · exact .inr (.inl ⟨⟨_, .inr ‹_›⟩, rfl⟩)
  · exact .inr (.inr ⟨‹_›, rfl⟩)

/-! ### A step -/

/-- The end of a step answers a next state only from a next state. -/
theorem endStep_next {r : Result} {t : State} (h : endStep r = .next t) :
    ∃ u, r = .next u ∧ t = nextSample u := by
  unfold endStep at h
  split at h
  · cases h
    exact ⟨_, rfl, rfl⟩
  all_goals cases h

/-- Everything a step that answers a next state can be (70_reset_and_hazards.md R290). -/
theorem step_cases {s t : State} (h : step s = .next t) :
    (resetLevel s = false ∧ t = nextSample (takeReset s)) ∨
    (resetLevel s = true ∧ s.mode = .resetHeld ∧
      t = nextSample { s with mode := .operating }) ∨
    (resetLevel s = true ∧ (∃ x, s.mode = .halt x ∨ s.mode = .stop x) ∧
      t = nextSample (standbyStep s)) ∨
    (∃ i u, Runs s i ∧ exec i s = .next u ∧ t = nextSample u) := by
  unfold step at h
  split at h
  · rename_i hr
    split at h
    · cases h
      exact .inr (.inl ⟨hr, ‹_›, rfl⟩)
    · cases h
      exact .inr (.inr (.inl ⟨hr, ⟨_, .inl ‹_›⟩, rfl⟩))
    · cases h
      exact .inr (.inr (.inl ⟨hr, ⟨_, .inr ‹_›⟩, rfl⟩))
    · split at h
      · obtain ⟨u, hu, rfl⟩ := endStep_next h
        exact .inr (.inr (.inr ⟨_, u, ⟨hr, ‹_›, ‹_›⟩, hu, rfl⟩))
      · cases h
  · rename_i hr
    cases h
    exact .inl ⟨by simpa using hr, rfl⟩

end Sys2Proof.Machine
end

