-- ==== Sys2Proof/Laws/PerInstr.lean ====
section
/-! SUPPORT. The family FixedBits: an encoded instruction has the fixed bits of its row of
spec/opcode_table.json (30_encoding.md R103, R104). -/

namespace Sys2Proof.Laws

/-- The row's mask of fixed bits. -/
def rowMask : Instr → ProgWord
  | .addRM _ _ => 0xF800
  | .addMI _ _ => 0xF800
  | .addcRM _ _ => 0xF800
  | .addcMI _ _ => 0xF800
  | .subRM _ _ => 0xF800
  | .subMI _ _ => 0xF800
  | .subcRM _ _ => 0xF800
  | .subcMI _ _ => 0xF800
  | .orRM _ _ => 0xF800
  | .orMI _ _ => 0xF800
  | .andRM _ _ => 0xF800
  | .andMI _ _ => 0xF800
  | .xorRM _ _ => 0xF800
  | .xorMI _ _ => 0xF800
  | .skt _ _ => 0xF800
  | .skf _ _ => 0xF800
  | .ske _ _ => 0xF800
  | .skne _ _ => 0xF800
  | .skge _ _ => 0xF800
  | .sklt _ _ => 0xF800
  | .rorc _ => 0xFFF0
  | .ld _ _ => 0xF800
  | .st _ _ => 0xF800
  | .mov _ _ => 0xF800
  | .br _ => 0xF800
  | .call _ => 0xF800
  | .ret => 0xFFFF
  | .retsk => 0xFFFF
  | .stop _ => 0xFFF0
  | .halt _ => 0xFFF0
  | .nop => 0xFFFF

/-- The row's fixed bits. -/
def rowMatch : Instr → ProgWord
  | .addRM _ _ => 0x0000
  | .addMI _ _ => 0x8000
  | .addcRM _ _ => 0x1000
  | .addcMI _ _ => 0x9000
  | .subRM _ _ => 0x0800
  | .subMI _ _ => 0x8800
  | .subcRM _ _ => 0x1800
  | .subcMI _ _ => 0x9800
  | .orRM _ _ => 0x3000
  | .orMI _ _ => 0xB000
  | .andRM _ _ => 0x2000
  | .andMI _ _ => 0xA000
  | .xorRM _ _ => 0x2800
  | .xorMI _ _ => 0xA800
  | .skt _ _ => 0xF000
  | .skf _ _ => 0xF800
  | .ske _ _ => 0x4800
  | .skne _ _ => 0x5800
  | .skge _ _ => 0xC800
  | .sklt _ _ => 0xD800
  | .rorc _ => 0x3870
  | .ld _ _ => 0x4000
  | .st _ _ => 0xC000
  | .mov _ _ => 0xE800
  | .br _ => 0x6000
  | .call _ => 0xE000
  | .ret => 0x38E0
  | .retsk => 0x39E0
  | .stop _ => 0x3AF0
  | .halt _ => 0x3BF0
  | .nop => 0x3CF0

/-- The encoded word agrees with its row on the fixed bits. -/
def FixedBits.Statement (i : Instr) : Prop := encode i &&& rowMask i = rowMatch i

theorem encodeM_fixed (op : BitVec 5) (m : DataAddr) (lo : Nibble) (w : ProgWord)
    (h : op ++ 0#7 ++ 0#4 = w) : encodeM op m lo &&& 0xF800 = w := by
  rw [← h]
  change (op ++ m ++ lo) &&& (0b11111#5 ++ 0#7 ++ 0#4) = op ++ 0#7 ++ 0#4
  rw [BitVec.and_append, BitVec.and_append, BitVec.and_zero, BitVec.and_zero]
  exact congrArg (· ++ 0#7 ++ 0#4) (BitVec.and_allOnes (x := op))

theorem encodeA_fixed (op : BitVec 5) (addr : BitVec 11) (w : ProgWord) (h : op ++ 0#11 = w) :
    encodeA op addr &&& 0xF800 = w := by
  rw [← h]
  change (op ++ addr) &&& (0b11111#5 ++ 0#11) = op ++ 0#11
  rw [BitVec.and_append, BitVec.and_zero]
  exact congrArg (· ++ 0#11) (BitVec.and_allOnes (x := op))

theorem encodeX_fixed (fHi : BitVec 3) (fMid lo : Nibble) (w : ProgWord)
    (h : 0b00111#5 ++ fHi ++ fMid ++ 0#4 = w) : encodeX fHi fMid lo &&& 0xFFF0 = w := by
  rw [← h]
  change (0b00111#5 ++ fHi ++ fMid ++ lo) &&& (BitVec.allOnes 12 ++ 0#4) = _
  rw [BitVec.and_append, BitVec.and_zero, BitVec.and_allOnes]

namespace FixedBits

theorem addRM (r : RegNum) (m : DataAddr) : Statement (.addRM r m) :=
  encodeM_fixed 0b00000#5 m r 0x0000 (by decide)
theorem addMI (m : DataAddr) (n4 : Nibble) : Statement (.addMI m n4) :=
  encodeM_fixed 0b10000#5 m n4 0x8000 (by decide)
theorem addcRM (r : RegNum) (m : DataAddr) : Statement (.addcRM r m) :=
  encodeM_fixed 0b00010#5 m r 0x1000 (by decide)
theorem addcMI (m : DataAddr) (n4 : Nibble) : Statement (.addcMI m n4) :=
  encodeM_fixed 0b10010#5 m n4 0x9000 (by decide)
theorem subRM (r : RegNum) (m : DataAddr) : Statement (.subRM r m) :=
  encodeM_fixed 0b00001#5 m r 0x0800 (by decide)
theorem subMI (m : DataAddr) (n4 : Nibble) : Statement (.subMI m n4) :=
  encodeM_fixed 0b10001#5 m n4 0x8800 (by decide)
theorem subcRM (r : RegNum) (m : DataAddr) : Statement (.subcRM r m) :=
  encodeM_fixed 0b00011#5 m r 0x1800 (by decide)
theorem subcMI (m : DataAddr) (n4 : Nibble) : Statement (.subcMI m n4) :=
  encodeM_fixed 0b10011#5 m n4 0x9800 (by decide)
theorem orRM (r : RegNum) (m : DataAddr) : Statement (.orRM r m) :=
  encodeM_fixed 0b00110#5 m r 0x3000 (by decide)
theorem orMI (m : DataAddr) (n4 : Nibble) : Statement (.orMI m n4) :=
  encodeM_fixed 0b10110#5 m n4 0xB000 (by decide)
theorem andRM (r : RegNum) (m : DataAddr) : Statement (.andRM r m) :=
  encodeM_fixed 0b00100#5 m r 0x2000 (by decide)
theorem andMI (m : DataAddr) (n4 : Nibble) : Statement (.andMI m n4) :=
  encodeM_fixed 0b10100#5 m n4 0xA000 (by decide)
theorem xorRM (r : RegNum) (m : DataAddr) : Statement (.xorRM r m) :=
  encodeM_fixed 0b00101#5 m r 0x2800 (by decide)
theorem xorMI (m : DataAddr) (n4 : Nibble) : Statement (.xorMI m n4) :=
  encodeM_fixed 0b10101#5 m n4 0xA800 (by decide)
theorem skt (m : DataAddr) (n : Nibble) : Statement (.skt m n) :=
  encodeM_fixed 0b11110#5 m n 0xF000 (by decide)
theorem skf (m : DataAddr) (n : Nibble) : Statement (.skf m n) :=
  encodeM_fixed 0b11111#5 m n 0xF800 (by decide)
theorem ske (m : DataAddr) (n4 : Nibble) : Statement (.ske m n4) :=
  encodeM_fixed 0b01001#5 m n4 0x4800 (by decide)
theorem skne (m : DataAddr) (n4 : Nibble) : Statement (.skne m n4) :=
  encodeM_fixed 0b01011#5 m n4 0x5800 (by decide)
theorem skge (m : DataAddr) (n4 : Nibble) : Statement (.skge m n4) :=
  encodeM_fixed 0b11001#5 m n4 0xC800 (by decide)
theorem sklt (m : DataAddr) (n4 : Nibble) : Statement (.sklt m n4) :=
  encodeM_fixed 0b11011#5 m n4 0xD800 (by decide)
theorem rorc (r : RegNum) : Statement (.rorc r) :=
  encodeX_fixed 0b000#3 0b0111#4 r 0x3870 (by decide)
theorem ld (r : RegNum) (m : DataAddr) : Statement (.ld r m) :=
  encodeM_fixed 0b01000#5 m r 0x4000 (by decide)
theorem st (m : DataAddr) (r : RegNum) : Statement (.st m r) :=
  encodeM_fixed 0b11000#5 m r 0xC000 (by decide)
theorem mov (m : DataAddr) (n4 : Nibble) : Statement (.mov m n4) :=
  encodeM_fixed 0b11101#5 m n4 0xE800 (by decide)
theorem br (addr : BitVec 11) : Statement (.br addr) :=
  encodeA_fixed 0b01100#5 addr 0x6000 (by decide)
theorem call (addr : BitVec 11) : Statement (.call addr) :=
  encodeA_fixed 0b11100#5 addr 0xE000 (by decide)
theorem ret : Statement .ret := rfl
theorem retsk : Statement .retsk := rfl
theorem stop (cond : Nibble) : Statement (.stop cond) :=
  encodeX_fixed 0b010#3 0b1111#4 cond 0x3AF0 (by decide)
theorem halt (cond : Nibble) : Statement (.halt cond) :=
  encodeX_fixed 0b011#3 0b1111#4 cond 0x3BF0 (by decide)
theorem nop : Statement .nop := rfl

end FixedBits

end Sys2Proof.Laws
end

