-- ==== Sys2Proof/Tests/Slice0.lean ====
section
/-! SUPPORT. Small tests of the model, expected results taken from spec/95_test_vectors.md (the
vector's id stands beside each test), and for every statement with hypotheses a concrete case that
meets them. -/

namespace Sys2Proof.Machine.Tests

/-! ### Helpers -/

/-- The convention of 95_test_vectors.md: pc 010H, all port 0B pull-ups built in. -/
def base : State :=
  { State.reset with
    pc := 0x010
    chip := { Chip.default with optP0B1 := .pullUp, optP0B0 := .pullUp } }

/-- `s` with RAM nibble `i` holding `v`. -/
def put (s : State) (i : Fin 16) (v : Nibble) : State := { s with ram := s.ram.set i v }

/-- `s` with the environment driving `e` during its next step. -/
def held (s : State) (e : EnvSample) : State := { s with inputs := [e] }

/-- Every pin of port 0B driven: `b2 b1 b0`. -/
def port0B (b2 b1 b0 : Drive) : EnvSample :=
  { EnvSample.released with p0b2 := b2, p0b1 := b1, p0b0 := b0 }

/-- Every pin of port 0C driven. -/
def port0C (b3 b2 b1 b0 : Drive) : EnvSample :=
  { EnvSample.released with p0c3 := b3, p0c2 := b2, p0c1 := b1, p0c0 := b0 }

/-- Every pin of port 0D driven. -/
def port0D (b3 b2 b1 b0 : Drive) : EnvSample :=
  { EnvSample.released with p0d3 := b3, p0d2 := b2, p0d1 := b1, p0d0 := b0 }

/-- RESET driven low, nothing else driven. -/
def resetLow : EnvSample := { EnvSample.released with reset := .low }

/-- RAM nibble `i`. -/
def cell (s : State) (i : Fin 16) : Nibble := s.ram[i]

/-- (BCD, CMP, CY, Z). -/
def flags (s : State) : Bool × Bool × Bool × Bool := (s.bcd, s.cmp, s.cy, s.z)

/-- The result is a next state that meets `p`. -/
def next (r : Result) (p : State → Bool) : Bool :=
  match r with
  | .next t => p t
  | .fault _ => false
  | .refused _ => false

/-- The result is the fault `f`. -/
def faults (r : Result) (f : Fault) : Bool :=
  match r with
  | .next _ => false
  | .fault g => f == g
  | .refused _ => false

/-! ### Well-formedness: an ill-formed term for each check (R112) -/

theorem test_wellFormed_br : (Instr.br 0x1FF).wellFormed = true ∧
    (Instr.br 0x200).wellFormed = false ∧ (Instr.br 0x400).wellFormed = false := by decide

theorem test_wellFormed_call : (Instr.call 0x000).wellFormed = true ∧
    (Instr.call 0x200).wellFormed = false ∧ (Instr.call 0x7FF).wellFormed = false := by decide

theorem test_wellFormed_stop : (Instr.stop 1).wellFormed = true ∧
    (Instr.stop 2).wellFormed = false ∧ (Instr.stop 8).wellFormed = false := by decide

theorem test_wellFormed_halt : (Instr.halt 0).wellFormed = true ∧
    (Instr.halt 2).wellFormed = false ∧ (Instr.halt 15).wellFormed = false := by decide

/-! ### Decoding: words written out from R101–R104, fields in the order op, mR, mC, low -/

/-- V-A1, V-A4, V-A5, V-A6, V-A8, V-A10, V-A11, V-A12. -/
theorem test_decode_arithmetic :
    decodeTableWord 16 0b00000_000_0101_0010 = some (.addRM 2 0x05) ∧
    decodeTableWord 16 0b10000_000_0100_1111 = some (.addMI 0x04 0b1111) ∧
    decodeTableWord 16 0b00010_000_0110_0011 = some (.addcRM 3 0x06) ∧
    decodeTableWord 16 0b10010_000_0011_0000 = some (.addcMI 0x03 0b0000) ∧
    decodeTableWord 16 0b00001_000_0010_0001 = some (.subRM 1 0x02) ∧
    decodeTableWord 16 0b10001_000_1001_0001 = some (.subMI 0x09 0b0001) ∧
    decodeTableWord 16 0b00011_000_0010_0001 = some (.subcRM 1 0x02) ∧
    decodeTableWord 16 0b10011_000_1010_0011 = some (.subcMI 0x0A 0b0011) := by decide

/-- V-L1, V-L2, V-L3, V-L14, V-L16, V-L8. -/
theorem test_decode_logical :
    decodeTableWord 16 0b00110_000_0010_0001 = some (.orRM 1 0x02) ∧
    decodeTableWord 16 0b10110_000_0101_1000 = some (.orMI 0x05 0b1000) ∧
    decodeTableWord 16 0b00100_000_0010_0001 = some (.andRM 1 0x02) ∧
    decodeTableWord 16 0b10100_111_0001_1011 = some (.andMI 0x71 0b1011) ∧
    decodeTableWord 16 0b00101_111_0010_0010 = some (.xorRM 2 0x72) ∧
    decodeTableWord 16 0b10101_000_0101_1111 = some (.xorMI 0x05 0b1111) := by decide

/-- V-T2, V-T4, V-T16, V-T18, V-T30, V-T23. -/
theorem test_decode_skips :
    decodeTableWord 16 0b11110_000_0001_1101 = some (.skt 0x01 0b1101) ∧
    decodeTableWord 16 0b11111_000_0001_0110 = some (.skf 0x01 0b0110) ∧
    decodeTableWord 16 0b01001_000_0001_1010 = some (.ske 0x01 0b1010) ∧
    decodeTableWord 16 0b01011_000_0001_1000 = some (.skne 0x01 0b1000) ∧
    decodeTableWord 16 0b11001_111_0010_1000 = some (.skge 0x72 0b1000) ∧
    decodeTableWord 16 0b11011_000_0001_1001 = some (.sklt 0x01 0b1001) := by decide

/-- V-R4, V-R8, V-R13, V-R20. -/
theorem test_decode_transfers :
    decodeTableWord 16 0b00111_000_0111_1111 = some (.rorc 15) ∧
    decodeTableWord 16 0b01000_111_0001_0011 = some (.ld 3 0x71) ∧
    decodeTableWord 16 0b11000_000_0110_0010 = some (.st 0x06 2) ∧
    decodeTableWord 16 0b11101_111_1111_1010 = some (.mov 0x7F 0b1010) := by decide

/-- V-E29, V-E42, V-E9, V-E11, V-E14, V-E18, V-E19. -/
theorem test_decode_control :
    decodeTableWord 16 0b01100_00111111111 = some (.br 0x1FF) ∧
    decodeTableWord 16 0b11100_11111111111 = some (.call 0x7FF) ∧
    decodeTableWord 16 0b00111_000_1110_0000 = some .ret ∧
    decodeTableWord 16 0b00111_001_1110_0000 = some .retsk ∧
    decodeTableWord 16 0b00111_010_1111_0001 = some (.stop 1) ∧
    decodeTableWord 16 0b00111_011_1111_1111 = some (.halt 0b1111) ∧
    decodeTableWord 16 0b00111_100_1111_0000 = some .nop := by decide

/-- V-E26, V-E31 to V-E33, V-E35, V-E38: the six blank opcodes. -/
theorem test_decode_unassigned_opcodes :
    decodeTableWord 16 0x5000 = none ∧ decodeTableWord 16 0x6800 = none ∧
    decodeTableWord 16 0x7000 = none ∧ decodeTableWord 16 0x7800 = none ∧
    decodeTableWord 16 0xB800 = none ∧ decodeTableWord 16 0xD000 = none := by decide

/-- V-E6, V-E7, V-E10, V-E12, V-E20 to V-E22: blanks of the group 00111. -/
theorem test_decode_unassigned_group :
    decodeTableWord 16 0x3860 = none ∧ decodeTableWord 16 0x3970 = none ∧
    decodeTableWord 16 0x38E1 = none ∧ decodeTableWord 16 0x3AE0 = none ∧
    decodeTableWord 16 0x3CF1 = none ∧ decodeTableWord 16 0x3DF0 = none ∧
    decodeTableWord 16 0x3FFF = none := by decide

/-! ### Arithmetic -/

/-- V-A2: the incoming CY is ignored; 16 gives carry, result 0, Z. -/
theorem test_addRM_wraps :
    next (exec (.addRM 2 5) { put (put base 2 9) 5 7 with cy := true }) (fun t =>
      t.pc == 0x011 && cell t 2 == 0 && flags t == (false, false, true, true)) = true := by decide

/-- V-A20: Table 5-2, row 21. -/
theorem test_addRM_decimal_out_of_range :
    next (exec (.addRM 0 1) { put (put base 0 12) 1 9 with bcd := true }) (fun t =>
      cell t 0 == 0b1111 && flags t == (true, false, true, false)) = true := by decide

/-- V-A27: the stored PSW wins over the computed flags. -/
theorem test_addMI_into_psw :
    next (exec (.addMI 0x7F 0b0100) { base with z := true }) (fun t =>
      flags t == (false, false, true, true)) = true := by decide

/-- V-A31: with CMP = 1 the port stays in input mode. -/
theorem test_addMI_compare_on_port :
    next (exec (.addMI 0x73 1)
      (held { base with cmp := true, z := true } (port0D .low .low .high .high))) (fun t =>
      flags t == (false, true, false, false) && t.out0D == false) = true := by decide

/-- V-A5: the largest sum. -/
theorem test_addcRM_largest :
    next (exec (.addcRM 3 6) { put (put base 3 15) 6 15 with cy := true }) (fun t =>
      cell t 3 == 0b1111 && flags t == (false, false, true, false)) = true := by decide

/-- V-A19: the largest proper decimal sum. -/
theorem test_addcRM_decimal :
    next (exec (.addcRM 0 1) { put (put base 0 9) 1 9 with bcd := true, cy := true }) (fun t =>
      cell t 0 == 9 && flags t == (true, false, true, false)) = true := by decide

/-- V-A6. -/
theorem test_addcMI_propagates :
    next (exec (.addcMI 3 0) { put base 3 15 with cy := true }) (fun t =>
      cell t 3 == 0 && flags t == (false, false, true, true)) = true := by decide

/-- V-A8. -/
theorem test_subRM_borrows :
    next (exec (.subRM 1 2) (put (put base 1 3) 2 5)) (fun t =>
      cell t 1 == 0b1110 && flags t == (false, false, true, false)) = true := by decide

/-- V-A24: Table 5-2, row 13. -/
theorem test_subRM_decimal_out_of_range :
    next (exec (.subRM 0 1) { put (put base 0 15) 1 2 with bcd := true }) (fun t =>
      cell t 0 == 0b1111 && flags t == (true, false, true, false)) = true := by decide

/-- V-A15: CMP = 1 and a zero result leave Z at 0, and nothing is stored. -/
theorem test_subMI_compare_keeps_z :
    next (exec (.subMI 1 5) { put base 1 5 with cmp := true }) (fun t =>
      cell t 1 == 5 && flags t == (false, true, false, false)) = true := by decide

/-- V-A16: CY is written even with CMP = 1. -/
theorem test_subMI_compare_writes_cy :
    next (exec (.subMI 1 6) { put base 1 5 with cmp := true, z := true }) (fun t =>
      flags t == (false, true, true, false)) = true := by decide

/-- V-A11: the smallest difference. -/
theorem test_subcRM_smallest :
    next (exec (.subcRM 1 2) { put base 2 15 with cy := true }) (fun t =>
      cell t 1 == 0 && flags t == (false, false, true, true)) = true := by decide

/-- V-A23: the smallest proper decimal difference. -/
theorem test_subcRM_decimal :
    next (exec (.subcRM 0 1) { put base 1 9 with bcd := true, cy := true }) (fun t =>
      cell t 0 == 0 && flags t == (true, false, true, true)) = true := by decide

/-- V-A12. -/
theorem test_subcMI_zero :
    next (exec (.subcMI 10 3) { put base 10 4 with cy := true }) (fun t =>
      cell t 10 == 0 && flags t == (false, false, false, true)) = true := by decide

/-! ### Logical instructions -/

/-- V-L1: flags untouched. -/
theorem test_orRM : next (exec (.orRM 1 2)
      { put (put base 1 0b0101) 2 0b0011 with cy := true, z := true }) (fun t =>
    cell t 1 == 0b0111 && flags t == (false, false, true, true)) = true := by decide

/-- V-L15: the first write turns port 0C to output. -/
theorem test_orMI_port :
    next (exec (.orMI 0x72 1) (held base (port0C .low .high .high .low))) (fun t =>
      t.latch0C == 0b0111 && t.out0C) = true := by decide

/-- V-L3. -/
theorem test_andRM : next (exec (.andRM 1 2) (put (put base 1 0b0101) 2 0b0011)) (fun t =>
    cell t 1 == 0b0001 && cell t 2 == 0b0011) = true := by decide

/-- V-L9: stored with CMP = 1. -/
theorem test_andMI_ignores_cmp :
    next (exec (.andMI 5 0b0110) { put base 5 15 with cmp := true, bcd := true }) (fun t =>
      cell t 5 == 0b0110 && flags t == (true, true, false, false)) = true := by decide

/-- V-L14, Fig. 6-2: the pins, not the latch, are read. -/
theorem test_andMI_open_drain :
    next (exec (.andMI 0x71 0b1011)
      (held { base with out0B := true, latch0B := 0b111 } (port0B .hiZ .low .low))) (fun t =>
      t.latch0B == 0 && t.out0B) = true := by decide

/-- V-L16: a driven push-pull port reads as its latch. -/
theorem test_xorRM_port : next (exec (.xorRM 2 0x72)
      { put base 2 15 with out0C := true, latch0C := 0b1001 }) (fun t =>
    cell t 2 == 0b0110 && t.latch0C == 0b1001) = true := by decide

/-- V-L12: bit 0 of 7FH is discarded. -/
theorem test_xorMI_psw_bit0 : next (exec (.xorMI 0x7F 1) { base with cy := true }) (fun t =>
    flags t == (false, false, true, false)) = true := by decide

/-! ### Skip instructions -/

/-- V-T2: no skip, CMP reset all the same. -/
theorem test_skt_not_taken :
    next (exec (.skt 1 0b1101) { put base 1 0b1011 with cmp := true }) (fun t =>
      t.pc == 0x011 && t.cmp == false && t.cycles == 1) = true := by decide

/-- V-T10: CMP itself is tested before it is reset (`read_first`). -/
theorem test_skt_reads_cmp_first :
    next (exec (.skt 0x7F 0b1000) { base with cmp := true }) (fun t =>
      t.pc == 0x012 && t.cmp == false && t.cycles == 2) = true := by decide

/-- V-T4. -/
theorem test_skf_taken : next (exec (.skf 1 0b0110) (put base 1 0b1001)) (fun t =>
    t.pc == 0x012) = true := by decide

/-- V-T8: some but not all selected bits 0. -/
theorem test_skf_not_taken : next (exec (.skf 1 0b0110) (put base 1 0b0010)) (fun t =>
    t.pc == 0x011) = true := by decide

/-- V-T15: no flag changes. -/
theorem test_ske_keeps_flags :
    next (exec (.ske 1 0) { base with cy := true, cmp := true, bcd := true }) (fun t =>
      t.pc == 0x012 && flags t == (true, true, true, false)) = true := by decide

/-- V-T28: a skip from 1FFH. -/
theorem test_ske_wraps : next (exec (.ske 1 3) { put base 1 3 with pc := 0x1FF }) (fun t =>
    t.pc == 0x001) = true := by decide

/-- V-T17, V-T18. -/
theorem test_skne : next (exec (.skne 1 0b1010) (put base 1 0b1000)) (fun t => t.pc == 0x012) = true ∧
    next (exec (.skne 1 0b1000) (put base 1 0b1000)) (fun t => t.pc == 0x011) = true := by decide

/-- V-T19, V-T21: unsigned. -/
theorem test_skge : next (exec (.skge 1 0b0111) (put base 1 0b1000)) (fun t => t.pc == 0x012) = true ∧
    next (exec (.skge 1 0b1001) (put base 1 0b1000)) (fun t => t.pc == 0x011) = true := by decide

/-- V-T30: a comparison on pin levels. -/
theorem test_skge_port :
    next (exec (.skge 0x72 0b1000) (held base (port0C .high .low .low .low))) (fun t =>
      t.pc == 0x012) = true := by decide

/-- V-T23, V-T24. -/
theorem test_sklt : next (exec (.sklt 1 0b1001) (put base 1 0b1000)) (fun t => t.pc == 0x012) = true ∧
    next (exec (.sklt 1 0b1000) (put base 1 0b1000)) (fun t => t.pc == 0x011) = true := by decide

/-! ### Rotation and transfers -/

/-- V-R2. -/
theorem test_rorc_carry_in : next (exec (.rorc 1) (put base 1 0b1001)) (fun t =>
    cell t 1 == 0b0100 && t.cy) = true := by decide

/-- V-R5: stored although CMP = 1. -/
theorem test_rorc_ignores_cmp :
    next (exec (.rorc 2) { put base 2 0b0110 with cy := true, cmp := true, bcd := true }) (fun t =>
      cell t 2 == 0b1011 && flags t == (true, true, false, false)) = true := by decide

/-- V-R8: open drain with bit 3 of 71H 0. -/
theorem test_ld_port0B :
    next (exec (.ld 3 0x71) { put base 3 15 with out0B := true, latch0B := 0b101 }) (fun t =>
      cell t 3 == 0b0101 && t.latch0B == 0b101) = true := by decide

/-- V-R11. -/
theorem test_ld_unmapped :
    faults (exec (.ld 0 0x10) base) (.unimplementedDataAddress 0x010 0x10) = true := by decide

/-- V-R15: bit 3 is discarded. -/
theorem test_st_port0B : next (exec (.st 0x71 2) (put base 2 15)) (fun t =>
    t.latch0B == 0b111 && t.out0B) = true := by decide

/-- V-R16. -/
theorem test_st_psw : next (exec (.st 0x7F 2) (put base 2 0b0111)) (fun t =>
    flags t == (false, false, true, true)) = true := by decide

/-- V-R22. -/
theorem test_mov_bcd : next (exec (.mov 0x7E 1) base) (fun t =>
    flags t == (true, false, false, false)) = true := by decide

/-- V-R18, the last unimplemented address, as a MOV. -/
theorem test_mov_unmapped :
    faults (exec (.mov 0x7D 0) base) (.unimplementedDataAddress 0x010 0x7D) = true := by decide

/-! ### Undefined nibbles (70_reset_and_hazards.md R275) -/

/-- `base` under `RAM_RESET_POLICY = fault_on_read`: no nibble is defined. -/
def strict : State := { base with chip := { base.chip with ramReset := .faultOnRead } }

/-- `s` with RAM nibble `i` stored by a MOV. -/
def stored (s : State) (i : Fin 16) (v : Nibble) : State := dataWrite s (BitVec.ofNat 7 i) v

/-- The example on R275 at the end of 95_test_vectors.md section 2.4, `LD 3, 05H` with 05H never
written, under both policies; V-R19: a MOV to an undefined cell, which can then be read. -/
theorem test_undefined_read :
    faults (exec (.ld 3 0x05) strict) (.undefinedRead 0x010 0x05) = true ∧
    next (exec (.ld 3 0x05) base) (fun t => t.pc == 0x011) = true ∧
    next (exec (.mov 0x05 9) strict) (fun t =>
      next (exec (.ld 3 0x05) t) (fun u => cell u 3 == 9 && u.defined[3])) = true := by decide

/-- R235 (c): the address check of `m` comes before any undefined nibble, `r` before `m`. -/
theorem test_undefined_read_order :
    faults (exec (.addRM 2 0x10) strict) (.unimplementedDataAddress 0x010 0x10) = true ∧
    faults (exec (.addRM 2 0x05) strict) (.undefinedRead 0x010 0x02) = true ∧
    faults (exec (.addRM 2 0x05) (stored strict 2 1)) (.undefinedRead 0x010 0x05) = true := by decide

/-- R275: column (A) leaves no nibble defined, column (B) and STOP 0000B keep what was defined. -/
theorem test_reset_defined :
    next (step (held (stored strict 3 6) resetLow)) (fun t => t.defined[3]) = false ∧
    next (step (held { stored strict 3 6 with mode := .halt true } resetLow)) (fun t =>
      t.defined[3]) = true ∧
    next (exec (.stop 0) (stored strict 3 6)) (fun t => t.defined[3]) = true := by decide

/-! ### Control transfer -/

/-- V-B1, V-B3. -/
theorem test_br : next (exec (.br 0x1FF) base) (fun t => t.pc == 0x1FF) = true ∧
    faults (exec (.br 0x200) base) (.badBranchOperand 0x010 0x6200) = true := by decide

/-- V-B5, V-B6: the saved address wraps. -/
theorem test_call : next (exec (.call 0x100) base) (fun t =>
      t.pc == 0x100 && t.asr == 0x011 && t.depth == 1) = true ∧
    next (exec (.call 0x000) { base with pc := 0x1FF }) (fun t => t.asr == 0x000) = true := by
  decide

/-- V-B7, V-B8: the operand fault comes first. -/
theorem test_call_faults :
    faults (exec (.call 0x100) { base with depth := 1 }) (.stackOverflow 0x010) = true ∧
    faults (exec (.call 0x400) { base with depth := 1 }) (.badBranchOperand 0x010 0xE400) = true := by
  decide

/-- V-B9, V-B10. -/
theorem test_ret :
    next (exec .ret { base with depth := 1, asr := 0x011 }) (fun t =>
      t.pc == 0x011 && t.asr == 0x011 && t.depth == 0) = true ∧
    faults (exec .ret base) (.stackUnderflow 0x010) = true := by decide

/-- V-B12, V-B13. -/
theorem test_retsk :
    next (exec .retsk { base with depth := 1, asr := 0x1FF }) (fun t =>
      t.pc == 0x000 && t.depth == 0) = true ∧
    faults (exec .retsk base) (.stackUnderflow 0x010) = true := by decide

/-! ### NOP, HALT, STOP -/

/-- V-O1, V-O2. -/
theorem test_nop : next (exec .nop { base with cmp := true, cy := true }) (fun t =>
      t.pc == 0x011 && flags t == (false, true, true, false)) = true ∧
    next (exec .nop { base with pc := 0x1FF }) (fun t => t.pc == 0x000) = true := by decide

/-- V-O3, V-O4, V-O5. -/
theorem test_halt :
    next (exec (.halt 0) base) (fun t => t.mode == .halt false && t.pc == 0x011) = true ∧
    next (exec (.halt 1) (held base (port0B .hiZ .hiZ .low))) (fun t => t.mode == .halt true) = true ∧
    next (exec (.halt 1) base) (fun t => t.mode == .operating && t.pc == 0x011) = true := by decide

/-- V-O6, V-O7: the chip itself holds P0B0 low; a bad operand. -/
theorem test_halt_edges :
    next (exec (.halt 1) { base with out0B := true, latch0B := 0b110 }) (fun t =>
      t.mode == .halt true) = true ∧
    faults (exec (.halt 2) base) (.badStandbyOperand 0x010 0x3BF2) = true := by decide

/-- V-O8, V-O9: STOP looks at P0B1. -/
theorem test_stop_condition :
    next (exec (.stop 1) (held base (port0B .hiZ .low .hiZ))) (fun t => t.mode == .stop true) = true ∧
    next (exec (.stop 1) (held base (port0B .hiZ .hiZ .low))) (fun t => t.mode == .operating) = true := by
  decide

/-- V-O10. -/
theorem test_stop_initialises :
    next (exec (.stop 0) { put base 3 6 with
      bcd := true, cmp := true, cy := true, z := true, out0D := true, latch0D := 9, depth := 1,
      asr := 8 }) (fun t =>
      t.pc == 0 && flags t == (false, false, false, false) && cell t 3 == 6 && t.latch0D == 9 &&
        t.out0D == false && t.asr == 8 && t.depth == 0 && t.mode == .stop false) = true := by decide

/-! ### Steps: fetch, standby, reset -/

/-- V-P8 step 4: an executed unassigned word faults. -/
theorem test_step_illegal :
    faults (step (base.withFetchWord 16 0x7FFF)) (.illegalInstruction 0x010 0x7FFF) = true := by
  decide

/-- V-P8 step 2: the skipped word is not decoded. -/
theorem test_step_skips_unassigned_word :
    next (step { (put base 0 3).withFetchWord 16 0x4803 with
        rom := storeProgramWord (storeProgramWord [] 0x010 0x4803) 0x011 0x5000 }) (fun t =>
      t.pc == 0x012 && t.ticks == 1) = true := by decide

/-- A fetch where no word is placed. -/
theorem test_step_without_program :
    faults (step State.reset) (.romNotProgrammed 0) = true := by decide

/-- V-O13, V-O14. -/
theorem test_halt_release :
    next (step (held { base with mode := .halt true } (port0B .hiZ .high .low))) (fun t =>
      t.mode == .halt true) = true ∧
    next (step (held { base with mode := .halt true } (port0B .hiZ .low .high))) (fun t =>
      t.mode == .operating && t.pc == 0x010) = true := by decide

/-- V-O15, V-O16. -/
theorem test_stop_release :
    next (step (held { base with mode := .stop true } (port0B .hiZ .low .high))) (fun t =>
      t.mode == .stop true) = true ∧
    next (step (held { base with mode := .stop true } (port0B .hiZ .high .low))) (fun t =>
      t.mode == .operating) = true := by decide

/-- V-O17, V-O18. -/
theorem test_unconditional_standby :
    next (step { base with mode := .halt false }) (fun t => t.mode == .halt false) = true ∧
    next (step { base with mode := .stop false }) (fun t => t.mode == .stop false) = true := by decide

/-- V-X1: a reset out of operation (what column (A) leaves undefined is a free value). -/
theorem test_reset_operating :
    next (step (held { base with
      bcd := true, cmp := true, cy := true, z := true, out0B := true, out0D := true, depth := 1 }
      resetLow)) (fun t =>
      t.pc == 0 && flags t == (false, false, false, false) && t.out0B == false &&
        t.out0D == false && t.depth == 0 && t.mode == .resetHeld) = true := by decide

/-- V-X2: a reset out of HALT keeps data memory and latches. -/
theorem test_reset_standby :
    next (step (held { put base 3 6 with mode := .halt true, latch0D := 9, out0D := true }
      resetLow)) (fun t =>
      t.pc == 0 && cell t 3 == 6 && t.latch0D == 9 && t.out0D == false) = true := by decide

/-- R271: the end of a held reset. -/
theorem test_reset_released :
    next (step { base with pc := 0, mode := .resetHeld }) (fun t =>
      t.mode == .operating && t.pc == 0) = true := by decide

/-! ### Witnesses: concrete cases that meet the hypotheses of the statements -/

/-- `w` at the program counter of `base`, out of reset and operating. -/
def at10 (w : ProgWord) : State := base.withFetchWord 16 w.toNat

/-- `at10 w` with the instruction `w` about to be run. -/
def ready (w : ProgWord) : Bool :=
  resetLevel (at10 w) && (at10 w).mode == .operating &&
    programWord (at10 w).rom (at10 w).pc == some w

/-- `base` under `UNMAPPED_POLICY = any`. -/
def anyPolicy : State := { base with chip := { base.chip with unmapped := .any } }

/-- `base` under `SKT_CMP_ORDER = reset_first`. -/
def resetFirst : State := { base with chip := { base.chip with sktCmpOrder := .resetFirst } }

/-- `base` with `PIN_FOLLOWS_LATCH = false`. -/
def supplied : State := { base with chip := { base.chip with pinFollowsLatch := false } }

theorem witness_EncodeDecodeRoundTrip : decode 0x3871 = .ok (.rorc 1) := rfl

/-- Both ends of each of the six ranges. -/
theorem witness_UnassignedOpcodesFault :
    ([0x5000, 0x57FF, 0x6800, 0x6FFF, 0x7000, 0x77FF, 0x7800, 0x7FFF, 0xB800, 0xBFFF, 0xD000,
      0xD7FF] : List ProgWord).all ready = true := by decide

theorem witness_GroupWordsAssigned :
    (∀ i, decode 0x3800 ≠ .ok i) ∧ (∀ i, decode 0x3FFF ≠ .ok i) ∧
    ([0x3800, 0x3FFF] : List ProgWord).all ready = true ∧
    decode 0x3870 = .ok (.rorc 0) ∧ decode 0x3CF0 = .ok .nop :=
  ⟨fun _ h => (nomatch h), fun _ h => (nomatch h), by decide, rfl, rfl⟩

/-- The ends of the unmapped ranges and their neighbours. -/
theorem witness_DataReadMap :
    ([0x10, 0x70, 0x74, 0x7D] : List DataAddr).all (fun a => !accessible base a) = true ∧
    ([0x00, 0x0F, 0x71, 0x73, 0x7E, 0x7F] : List DataAddr).all (accessible base) = true ∧
    accessible anyPolicy 0x10 = true := by decide

theorem witness_DataWriteMap :
    ([0x10, 0x70, 0x74, 0x7D] : List DataAddr).all (fun a => dataWrite base a 15 == base) = true := by
  decide

theorem witness_DataReadAfterWrite :
    dataRead (dataWrite base 0x0F 9) 0x0F = 9 ∧ dataRead (dataWrite base 0x7E 15) 0x7E = 1 ∧
    dataRead (dataWrite base 0x7F 15) 0x7F = 14 ∧
    dataRead (dataWrite base 0x72 5) 0x71 = dataRead base 0x71 := by decide

/-- Each row of R244 on pins P0B0 and P0D3, and the pull-up of P0B0 in both modes. -/
theorem witness_ChipDriveTable :
    chipDrive base .p0b0 = .hiZ ∧ base.chip.optP0B0 = .pullUp ∧
    base.chip.pinFollowsLatch = true ∧ (currentSample base).drive .p0b0 = .hiZ ∧
    chipDrive { base with out0B := true, latch0B := 0b001 } .p0b0 = .hiZ ∧
    chipDrive { base with out0B := true, latch0B := 0b110 } .p0b0 = .low ∧
    chipDrive base .p0d3 = .hiZ ∧
    chipDrive { base with out0D := true, latch0D := 0b1000 } .p0d3 = .high ∧
    chipDrive { base with out0D := true, latch0D := 0b0111 } .p0d3 = .low := by decide

/-- Each clause of the pin rules, the three pull-ups of port 0B and RESET. -/
theorem witness_PinLevelRules :
    base.chip.pinFollowsLatch = true ∧
    chipDrive { base with out0B := true } .p0b1 = .low ∧
    chipDrive { base with out0C := true, latch0C := 15 } .p0c0 = .high ∧
    (currentSample (held base (port0B .hiZ .low .high))).drive .p0b1 = .low ∧
    (currentSample (held base (port0B .hiZ .low .high))).drive .p0b0 = .high ∧
    (currentSample base).drive .p0b2 = .hiZ ∧ base.chip.optP0B2 = .pullUp ∧
    (currentSample base).drive .p0b1 = .hiZ ∧ base.chip.optP0B1 = .pullUp ∧
    (currentSample base).drive .p0b0 = .hiZ ∧ base.chip.optP0B0 = .pullUp ∧
    chipDrive base .p0b2 = .hiZ ∧ chipDrive base .p0b1 = .hiZ ∧ chipDrive base .p0b0 = .hiZ ∧
    (currentSample (held base resetLow)).reset = .low ∧
    (currentSample (held supplied { EnvSample.released with reset := .high })).reset = .high ∧
    (currentSample supplied).reset = .hiZ ∧ supplied.chip.optReset = .pullUp ∧
    supplied.chip.pinFollowsLatch = false ∧
    (currentSample (held supplied (port0C .high .low .hiZ .hiZ))).drive .p0c3 = .high ∧
    (currentSample (held supplied (port0C .high .low .hiZ .hiZ))).drive .p0c2 = .low := by decide

theorem witness_PortReadBack :
    base.chip.pinFollowsLatch = true ∧ (0b0101#4).getLsbD 1 = false := by decide

theorem witness_UnmappedAddressPolicy :
    memOperand (.ld 0 0x10) = some 0x10 ∧ memOperand (.mov 0x7D 1) = some 0x7D ∧
    base.chip.unmapped = .fault ∧ anyPolicy.chip.unmapped = .any ∧
    operandsReady (.ld 0 0x70) anyPolicy = true ∧
    next (exec (.ld 0 0x70) anyPolicy) (fun t => t.pc == 0x011) = true := by decide

/-- `operandsReady`, the hypothesis of the statements of one instruction's result: register forms,
a port, and under `fault_on_read` nibbles stored before. -/
theorem witness_effect_hypotheses :
    operandsReady (.addRM 2 0x05) base = true ∧ operandsReady (.addcMI 0x7F 1) base = true ∧
    operandsReady (.subRM 15 0x73) base = true ∧ operandsReady (.subcMI 0x0F 1) base = true ∧
    operandsReady (.orRM 0 0x00) base = true ∧ operandsReady (.andMI 0x71 3) base = true ∧
    operandsReady (.xorRM 1 0x7E) base = true ∧ operandsReady (.ld 3 0x05) base = true ∧
    operandsReady (.st 0x72 4) base = true ∧ operandsReady (.mov 0x05 1) strict = true ∧
    operandsReady (.rorc 2) (stored strict 2 1) = true ∧
    operandsReady (.addRM 2 0x05) (stored (stored strict 2 1) 5 1) = true ∧
    operandsReady (.addRM 2 0x05) (stored strict 2 1) = false ∧
    operandsReady (.mov 0x20 1) base = false := by decide

/-- The hypotheses of SktEffect and SkfEffect on the operand, of EqualitySkips and OrderSkips. -/
theorem witness_skip_hypotheses :
    operandsReady (.skt 0x01 5) base = true ∧ operandsReady (.skf 0x7F 8) resetFirst = true ∧
    accessible base 0x01 = true ∧ readable base 0x01 = true ∧
    accessible strict 0x73 = true ∧ readable strict 0x73 = true := by decide

theorem witness_DecimalDigits :
    operandsReady (.addcRM 0 0x01) { put (put base 0 9) 1 9 with bcd := true, cy := true } = true ∧
    (reg { put (put base 0 9) 1 9 with bcd := true, cy := true } 0).toNat ≤ 9 ∧
    (dataRead { put (put base 0 9) 1 9 with bcd := true, cy := true } 0x01).toNat ≤ 9 := by decide

/-- `put (put base 0 a) 1 b` doing decimal arithmetic with carry `c`. -/
def decimal (a b : Nibble) (c : Bool) : State := { put (put base 0 a) 1 b with bcd := true, cy := c }

/-- All hypotheses together, for each of the eight forms at the edge of its range: a sum of 20, a
difference of 10, one of −11. -/
theorem witness_DecimalOutOfRange :
    ((decimal 11 9 false).bcd = true ∧ operandsReady (.addRM 0 0x01) (decimal 11 9 false) = true ∧
      20 ≤ (reg (decimal 11 9 false) 0).toNat + (dataRead (decimal 11 9 false) 0x01).toNat) ∧
    (operandsReady (.addcRM 0 0x01) (decimal 10 9 true) = true ∧
      20 ≤ (reg (decimal 10 9 true) 0).toNat + ((dataRead (decimal 10 9 true) 0x01).toNat + 1)) ∧
    (operandsReady (.subRM 0 0x01) (decimal 12 2 false) = true ∧
      (dataRead (decimal 12 2 false) 0x01).toNat + 10 ≤ (reg (decimal 12 2 false) 0).toNat) ∧
    (operandsReady (.subcRM 0 0x01) (decimal 2 12 true) = true ∧
      (reg (decimal 2 12 true) 0).toNat + 10 < (dataRead (decimal 2 12 true) 0x01).toNat + 1) ∧
    (operandsReady (.addMI 0x00 9) (decimal 11 0 false) = true ∧
      20 ≤ (dataRead (decimal 11 0 false) 0x00).toNat + (9#4).toNat) ∧
    (operandsReady (.addcMI 0x00 9) (decimal 10 0 true) = true ∧
      20 ≤ (dataRead (decimal 10 0 true) 0x00).toNat + ((9#4).toNat + 1)) ∧
    (operandsReady (.subMI 0x00 13) (decimal 2 0 false) = true ∧
      (dataRead (decimal 2 0 false) 0x00).toNat + 10 < (13#4).toNat) ∧
    (operandsReady (.subcMI 0x00 4) (decimal 15 0 true) = true ∧
      (4#4).toNat + 1 + 10 ≤ (dataRead (decimal 15 0 true) 0x00).toNat) := by decide

theorem witness_AccumulatingCompare :
    isArithmetic (.subMI 1 4) = true ∧
    ∃ t, exec (.subMI 1 4) { base with cmp := true, z := true } = .next t :=
  ⟨rfl, _, rfl⟩

/-- The four forms at 7FH reading {0, 0, 1, 0} and, with CMP = 1, {1, 0, 1, 0}. -/
theorem witness_ArithmeticOnPsw :
    sumOutcome false (2 + 4) = (false, 0b0110) ∧ sumOutcome false (10 + 8) = (true, 0b0010) ∧
    (dataRead { base with z := true } 0x7F).toNat = 2 ∧
    (dataRead { base with z := true, cmp := true } 0x7F).toNat = 10 := by decide

/-- A mask met and a mask not met, under both orders. -/
theorem witness_SktEffect :
    (∀ k < 4, (0b1011#4).getLsbD k = true → (dataRead (put base 1 0b1011) 1).getLsbD k = true) ∧
    (∃ k < 4, (0b1101#4).getLsbD k = true ∧ (dataRead (put base 1 0b1011) 1).getLsbD k = false) ∧
    resetFirst.chip.sktCmpOrder = .resetFirst ∧
    (dataRead { resetFirst with cmp := true } 0x7F &&& 0b0111).getLsbD 3 = false := by decide

theorem witness_SkfEffect :
    (∀ k < 4, (0b0110#4).getLsbD k = true → (dataRead (put base 1 0b1001) 1).getLsbD k = false) ∧
    (∃ k < 4, (0b1110#4).getLsbD k = true ∧ (dataRead (put base 1 0b1001) 1).getLsbD k = true) ∧
    next (exec (.skf 0x7F 0b1000) { resetFirst with cmp := true }) (fun t => t.pc == 0x012) = true := by
  decide

theorem witness_EqualitySkips :
    (dataRead (put base 1 10) 1).toNat = (10#4).toNat ∧
    (dataRead (put base 1 10) 1).toNat ≠ (8#4).toNat := by decide

theorem witness_OrderSkips :
    (8#4).toNat ≤ (dataRead (put base 1 8) 1).toNat ∧
    (dataRead (put base 1 8) 1).toNat < (9#4).toNat := by decide

/-- The last good target and the first bad one. -/
theorem witness_BrEffect : (0x1FF#11).toNat < 512 ∧ 512 ≤ (0x200#11).toNat := by decide

theorem witness_CallEffect :
    (0x1FF#11).toNat < 512 ∧ 512 ≤ (0x200#11).toNat ∧ base.depth = 0 ∧
    { base with depth := 1 }.depth = 1 := by decide

theorem witness_ReturnEffect : base.depth = 0 ∧ { base with depth := 1 }.depth = 1 := by decide

theorem witness_CallThenReturn :
    ∃ t, exec (.call 0x100) base = .next t ∧ t.asr = 0x011 ∧ t.depth = 1 := ⟨_, rfl, rfl, rfl⟩

theorem witness_HaltEffect :
    pinLevel (held base (port0B .hiZ .hiZ .low)) .p0b0 = false ∧ pinLevel base .p0b0 = true ∧
    2 ≤ (2#4).toNat := by decide

theorem witness_StopEffect :
    pinLevel (held base (port0B .hiZ .low .hiZ)) .p0b1 = false ∧ pinLevel base .p0b1 = true ∧
    2 ≤ (2#4).toNat := by decide

/-- A next state and a fault reached through the step. -/
theorem witness_StepRunsFetchedInstruction :
    ready 0x3CF0 = true ∧ decode 0x3CF0 = .ok .nop ∧
    (∃ t, exec .nop (at10 0x3CF0) = .next t) ∧
    ready 0x38E0 = true ∧ decode 0x38E0 = .ok .ret ∧
    exec .ret (at10 0x38E0) = .fault (.stackUnderflow 0x010) :=
  ⟨by decide, rfl, ⟨_, rfl⟩, by decide, rfl, rfl⟩

theorem witness_ResetEntry :
    resetLevel (held base resetLow) = false ∧ (held base resetLow).mode = .operating ∧
    resetLevel (held { base with mode := .stop true } resetLow) = false ∧
    resetLevel (held { base with mode := .resetHeld } resetLow) = false := by decide

theorem witness_ResetRelease :
    Inv { base with pc := 0, mode := .resetHeld } ∧
    resetLevel { base with pc := 0, mode := .resetHeld } = true ∧
    (programWord (storeProgramWord [] 0 0x3CF0) 0).map decode = some (.ok .nop) :=
  ⟨⟨rfl, fun _ => ⟨rfl, rfl, rfl, rfl, rfl, rfl, rfl, rfl, rfl⟩⟩, by decide, rfl⟩

theorem witness_StandbyAndRelease :
    resetLevel (held base (port0B .hiZ .low .high)) = true ∧
    pinLevel (held base (port0B .hiZ .low .high)) .p0b0 = true ∧
    pinLevel (held base (port0B .hiZ .low .high)) .p0b1 = false ∧
    pinLevel (held base (port0B .hiZ .high .low)) .p0b1 = true ∧
    pinLevel (held base (port0B .hiZ .high .low)) .p0b0 = false := by decide

/-- RESET high while STOP runs, low in the next step, high in the one after. -/
theorem witness_StopThenResetRestarts :
    Runs { at10 0x3AF0 with inputs := [EnvSample.released, resetLow] } (.stop 0) ∧
    next (step { at10 0x3AF0 with inputs := [EnvSample.released, resetLow] }) (fun t =>
      !resetLevel t && next (step t) (fun u => resetLevel u)) = true :=
  ⟨⟨rfl, rfl, rfl⟩, by decide⟩

theorem witness_SelfBranchNeverFaults :
    AtSelfBranch (at10 0x6010) ∧ (at10 0x6010).inputs = [] ∧
    (at10 0x6010).chip.optReset = .pullUp :=
  ⟨⟨0x010, ⟨rfl, rfl, rfl⟩, rfl, rfl⟩, rfl, rfl⟩

theorem witness_MemoryFrame :
    (∃ t, exec (.st 0x06 2) base = .next t) ∧ destination (.st 0x06 2) ≠ some 0x0F ∧
    (∃ t, exec (.skt 0x06 2) base = .next t) ∧ destination (.skt 0x06 2) = none :=
  ⟨⟨_, rfl⟩, by decide, ⟨_, rfl⟩, rfl⟩

/-- For each flag an instruction that changes it. -/
theorem witness_FlagFrame :
    next (exec (.mov 0x7E 1) base) (fun t => t.bcd != base.bcd) = true ∧
    next (exec (.mov 0x7F 8) base) (fun t => t.cmp != base.cmp) = true ∧
    next (exec (.rorc 1) (put base 1 1)) (fun t => t.cy != base.cy) = true ∧
    next (exec (.addMI 1 0) base) (fun t => t.z != base.z) = true := by decide

/-- For each special register an instruction that changes it. -/
theorem witness_SpecialRegisterFrame :
    next (exec (.call 0) base) (fun t => t.asr != base.asr && t.depth != base.depth) = true ∧
    next (exec (.mov 0x71 1) base) (fun t => t.latch0B != base.latch0B && t.out0B) = true ∧
    next (exec (.mov 0x72 1) base) (fun t => t.latch0C != base.latch0C && t.out0C) = true ∧
    next (exec (.mov 0x73 1) base) (fun t => t.latch0D != base.latch0D && t.out0D) = true ∧
    next (exec (.halt 0) base) (fun t => t.mode != base.mode) = true ∧
    next (exec (.mov 0x05 1) base) (fun t => t.defined[5] != base.defined[5]) = true := by decide

/-- Each clause: a sequential instruction, a taken skip, each pc load, both kinds of STOP. -/
theorem witness_SequencingAndCycles :
    ¬ loadsPc .nop ∧ (∃ t, exec .nop base = .next t) ∧ isSkip (.ske 1 0) ∧
    next (exec (.ske 1 0) base) (fun t => t.pc == 0x012 && t.cycles == 2) = true ∧
    next (exec (.br 0x1FF) base) (fun t => t.pc == 0x1FF) = true ∧
    next (exec (.call 0x1FF) base) (fun t => t.pc == 0x1FF) = true ∧
    next (exec .ret { base with depth := 1, asr := 0x1FF }) (fun t => t.pc == 0x1FF) = true ∧
    next (exec .retsk { base with depth := 1, asr := 0x1FF }) (fun t =>
      t.pc == 0x000 && t.cycles == 2) = true ∧
    next (exec (.stop 0) base) (fun t => t.pc == 0x000) = true ∧
    next (exec (.stop 1) base) (fun t => t.pc == 0x011) = true :=
  ⟨by simp [loadsPc], ⟨_, rfl⟩, .inr (.inl ⟨1, 0, .inl rfl⟩), by decide⟩

/-- The premise in all three kinds of state: operating, reset held, stopped by `STOP 0000B`. -/
theorem witness_StepKeepsInvariant :
    Inv (at10 0x3AF0) ∧ (∃ t, step (at10 0x3AF0) = .next t) ∧
    Inv (held { base with pc := 0, mode := .resetHeld } resetLow) ∧
    Inv { base with pc := 0, mode := .stop false } :=
  ⟨⟨by decide, fun h => nomatch h⟩, ⟨_, rfl⟩,
    ⟨rfl, fun _ => ⟨rfl, rfl, rfl, rfl, rfl, rfl, rfl, rfl, rfl⟩⟩,
    ⟨rfl, fun _ => ⟨rfl, rfl, rfl, rfl, rfl, rfl, rfl, rfl, rfl⟩⟩⟩

theorem witness_ProgramAndChipFixed : ∃ t, step (at10 0x3CF0) = .next t := ⟨_, rfl⟩

theorem witness_ProgramMemoryIsNotData :
    (∃ t, exec .nop base = .next t) ∧ exec .ret base = .fault (.stackUnderflow 0x010) :=
  ⟨⟨_, rfl⟩, rfl⟩

/-- Output mode left by reset and by `STOP 0000B`, for each port. -/
theorem witness_OutputModeLeftOnlyByReset :
    next (step (held { base with out0B := true, out0C := true, out0D := true } resetLow)) (fun t =>
      !t.out0B && !t.out0C && !t.out0D) = true ∧
    next (step { at10 0x3AF0 with out0B := true, out0C := true, out0D := true }) (fun t =>
      !t.out0B && !t.out0C && !t.out0D) = true := by decide

theorem witness_StandbyEntryAndExit :
    next (step (at10 0x3BF0)) (fun t => t.mode == .halt false) = true ∧
    next (step (held { base with mode := .halt true } resetLow)) (fun t =>
      t.mode == .resetHeld) = true ∧
    next (step { base with mode := .stop true }) (fun t => t.mode == .operating) = true := by decide

/-- Two different states that agree once hidden. -/
theorem witness_InputModeLatchUnobservable :
    hideLatches (at10 0x3CF0) = hideLatches { at10 0x3CF0 with latch0C := 7 } ∧
    at10 0x3CF0 ≠ { at10 0x3CF0 with latch0C := 7 } := ⟨rfl, by decide⟩

/-- Every model fault is reached by a step. -/
theorem witness_FaultsOnlyAsListed :
    faults (step (at10 0x5000)) (.illegalInstruction 0x010 0x5000) = true ∧
    faults (step (at10 0x6200)) (.badBranchOperand 0x010 0x6200) = true ∧
    faults (step (at10 0x3AF2)) (.badStandbyOperand 0x010 0x3AF2) = true ∧
    faults (step (at10 0x4100)) (.unimplementedDataAddress 0x010 0x10) = true ∧
    faults (step (strict.withFetchWord 16 0x4053)) (.undefinedRead 0x010 0x05) = true ∧
    faults (step { at10 0xE000 with depth := 1 }) (.stackOverflow 0x010) = true ∧
    faults (step (at10 0x39E0)) (.stackUnderflow 0x010) = true ∧
    faults (step base) (.romNotProgrammed 0x010) = true := by decide

/-- An undefined `r`, an undefined `m` behind a defined `r`, and the default policy. -/
theorem witness_UndefinedReadPolicy :
    readable strict 0x0F = false ∧ readable strict 0x7F = true ∧
    (operandReads (.addRM 2 0x05)).find? (fun x => !readable strict x) = some 0x02 ∧
    (operandReads (.addRM 2 0x05)).find? (fun x => !readable (stored strict 2 1) x) = some 0x05 ∧
    accessible strict 0x05 = true ∧ base.chip.ramReset = .any ∧
    memOperand (.addRM 2 0x05) = some 0x05 := by decide

end Sys2Proof.Machine.Tests
end

