-- ==== Sys2Proof/Proofs/Arithmetic.lean ====
section
/-! The effect of ADD, ADDC, SUB, SUBC (40_arithmetic.md R134–R141): first what encoding, operand
checks and the ALU do for every instruction that uses them, then the four statements. -/

namespace Sys2Proof

/-- The word of an instruction with an `m` operand, as the fields' weights give it
(30_encoding.md R101, R102). -/
theorem encodeM_eq_ofNat (op : BitVec 5) (m : DataAddr) (lo : Nibble) :
    encodeM op m lo = BitVec.ofNat 16 (op.toNat * 2048 + m.toNat * 16 + lo.toNat) := by
  have hm : m.toNat < 2 ^ 7 := m.isLt
  have hlo : lo.toNat < 2 ^ 4 := lo.isLt
  have hop : op.toNat < 2 ^ 5 := op.isLt
  apply BitVec.eq_of_toNat_eq
  change (op ++ m ++ lo).toNat = _
  rw [BitVec.toNat_append, BitVec.toNat_append, ← Nat.shiftLeft_add_eq_or_of_lt hlo,
    ← Nat.shiftLeft_add_eq_or_of_lt hm, BitVec.toNat_ofNat, Nat.shiftLeft_eq, Nat.shiftLeft_eq]
  omega

end Sys2Proof

namespace Sys2Proof.Machine

/-! ### Operands that are ready -/

/-- An instruction that reads `m` alone runs on once its operands are ready. -/
theorem operandM_of_operandsReady {i : Instr} {s : State} {m : DataAddr}
    (hmem : memOperand i = some m) (hreads : operandReads i = [m])
    (h : operandsReady i s = true) (rest : Result) : operandM s m rest = rest := by
  simp only [operandsReady, hmem, hreads, Option.all_some, List.all_cons, List.all_nil,
    Bool.and_true, Bool.and_eq_true] at h
  obtain ⟨hacc, hm⟩ := h
  exact operandM_of_ready hacc hm rest

/-- An instruction that reads `r` and `m` runs on once its operands are ready. -/
theorem operandRM_of_operandsReady {i : Instr} {s : State} {r : RegNum} {m : DataAddr}
    (hmem : memOperand i = some m) (hreads : operandReads i = [regAddr r, m])
    (h : operandsReady i s = true) (rest : Result) : operandRM s r m rest = rest := by
  simp only [operandsReady, hmem, hreads, Option.all_some, List.all_cons, List.all_nil,
    Bool.and_true, Bool.and_eq_true] at h
  obtain ⟨hacc, hr, hm⟩ := h
  exact operandRM_of_ready hacc hr hm rest

/-! ### The ALU on natural numbers -/

/-- An exact sum is at most 31, so the five bits of R130 lose nothing. -/
theorem arithBin_add_toNat (a b : Nibble) (c : Bool) :
    (arithBin .add a b c).toNat = a.toNat + b.toNat + c.toNat := by
  have ha : a.toNat < 16 := a.isLt
  have hb : b.toNat < 16 := b.isLt
  have hc : c.toNat ≤ 1 := c.toNat_le
  rw [arithBin, exactResult, BitVec.toNat_ofInt]
  omega

/-- The five bits of R130 hold a negative difference as counted from 32. -/
theorem arithBin_sub_toNat (a b : Nibble) (c : Bool) :
    (arithBin .sub a b c).toNat = (a.toNat + 32 - (b.toNat + c.toNat)) % 32 := by
  have ha : a.toNat < 16 := a.isLt
  have hb : b.toNat < 16 := b.isLt
  have hc : c.toNat ≤ 1 := c.toNat_le
  rw [arithBin, exactResult, BitVec.toNat_ofInt]
  omega

/-- With BCD = 0, CY is bit 4 of the five bits of R130 and the result the four below it. -/
theorem arithResult_binary (op : ArithOp) (a b : Nibble) (c : Bool) :
    arithResult op false a b c =
      (decide (15 < (arithBin op a b c).toNat), BitVec.ofNat 4 (arithBin op a b c).toNat) := by
  have hcy (u : BitVec 5) : u.getLsbD 4 = decide (15 < u.toNat) := by
    have hu : u.toNat < 32 := u.isLt
    rw [BitVec.getLsbD, Nat.testBit_eq_decide_div_mod_eq]
    exact decide_eq_decide.mpr (by omega)
  have hres (u : BitVec 5) : u.extractLsb' 0 4 = BitVec.ofNat 4 u.toNat := rfl
  simp only [arithResult, Bool.false_eq_true, if_false, hcy, hres]

/-- With BCD = 1, CY and result are the row of Table 5-2 that the five bits of R130 name (R131). -/
theorem arithResult_decimal (op : ArithOp) (a b : Nibble) (c : Bool) :
    arithResult op true a b c = decimalConvert op (arithBin op a b c) := rfl

/-- CY and result of an addition, from the exact sum (R130, R131). -/
theorem arithResult_add (dec : Bool) (a b : Nibble) (c : Bool) :
    arithResult .add dec a b c = sumOutcome dec (a.toNat + b.toNat + c.toNat) := by
  cases dec with
  | false =>
    rw [arithResult_binary, arithBin_add_toNat, sumOutcome, if_neg Bool.false_ne_true]
  | true =>
    rw [arithResult_decimal, decimalConvert, arithBin_add_toNat, sumOutcome, if_pos rfl]

/-- Borrow and result of a subtraction, from the exact difference (R130, R131). -/
theorem arithResult_sub (dec : Bool) (a b : Nibble) (c : Bool) :
    arithResult .sub dec a b c = differenceOutcome dec a.toNat b.toNat c.toNat := by
  cases dec with
  | false =>
    have ha : a.toNat < 16 := a.isLt
    have hb : b.toNat < 16 := b.isLt
    have hc : c.toNat ≤ 1 := c.toNat_le
    rw [arithResult_binary, arithBin_sub_toNat, differenceOutcome, if_neg Bool.false_ne_true]
    refine Prod.ext (decide_eq_decide.mpr ?borrow) (BitVec.eq_of_toNat_eq ?digit)
    case borrow => omega
    case digit =>
      simp only [BitVec.toNat_ofNat]
      omega
  | true =>
    rw [arithResult_decimal, decimalConvert, arithBin_sub_toNat, differenceOutcome, if_pos rfl]

/-! ### Commit and pc -/

/-- The commit and the advance of the pc together leave the state of R132. -/
theorem advancePc_arithCommit (s : State) (d : DataAddr) (o : Bool × Nibble) :
    advancePc (arithCommit s d o) = arithOutcome s d o := by
  obtain ⟨hcmp, hcommit⟩ | ⟨hcmp, hcommit⟩ := arithCommit_cases s d o
  · have hz : (if o.2 = 0 then s.z else false) = (s.z && decide (o.2 = 0)) := by
      by_cases h0 : o.2 = 0
      · rw [if_pos h0, decide_eq_true h0, Bool.and_true]
      · rw [if_neg h0, decide_eq_false h0, Bool.and_false]
    rw [hcommit, hz, arithOutcome, if_pos hcmp]
    rfl
  · rw [hcommit, arithOutcome, if_neg (by simp [hcmp]), advancePc, dataWrite_pc, dataWrite_cycles]

/-- What an arithmetic instruction `r, m` answers once its operands are ready. -/
theorem operandRM_arith {i : Instr} {s : State} {r : RegNum} {m : DataAddr}
    (hmem : memOperand i = some m) (hreads : operandReads i = [regAddr r, m])
    (h : operandsReady i s = true) (op : ArithOp) (c : Bool) :
    operandRM s r m (arith op s (regAddr r) (regRead s r) (dataRead s m) c) =
      .next (arithOutcome s (regAddr r) (arithResult op s.bcd (reg s r) (dataRead s m) c)) := by
  rw [operandRM_of_operandsReady hmem hreads h, arith, advancePc_arithCommit, regRead,
    dataRead_regAddr]

/-- What an arithmetic instruction `m, #n4` answers once its operand is ready. -/
theorem operandM_arith {i : Instr} {s : State} {m : DataAddr}
    (hmem : memOperand i = some m) (hreads : operandReads i = [m])
    (h : operandsReady i s = true) (op : ArithOp) (n4 : Nibble) (c : Bool) :
    operandM s m (arith op s m (dataRead s m) n4 c) =
      .next (arithOutcome s m (arithResult op s.bcd (dataRead s m) n4 c)) := by
  rw [operandM_of_operandsReady hmem hreads h, arith, advancePc_arithCommit]

/-! ### The four statements -/

/-- Settles O13: the ALU's sum without a carry in. -/
theorem addEffect : Obligations.AddEffect := by
  unfold Obligations.AddEffect
  refine ⟨fun r m s => ⟨encodeM_eq_ofNat 0b00000#5 m r, fun h => ?_⟩,
    fun m n4 s => ⟨encodeM_eq_ofNat 0b10000#5 m n4, fun h => ?_⟩⟩
  · rw [exec, execAddRM, operandRM_arith rfl rfl h, arithResult_add, Bool.toNat_false, Nat.add_zero]
  · rw [exec, execAddMI, operandM_arith rfl rfl h, arithResult_add, Bool.toNat_false, Nat.add_zero]

/-- Settles O14: the ALU's sum with CY carried in. -/
theorem addcEffect : Obligations.AddcEffect := by
  unfold Obligations.AddcEffect
  refine ⟨fun r m s => ⟨encodeM_eq_ofNat 0b00010#5 m r, fun h => ?_⟩,
    fun m n4 s => ⟨encodeM_eq_ofNat 0b10010#5 m n4, fun h => ?_⟩⟩
  · rw [exec, execAddcRM, operandRM_arith rfl rfl h, arithResult_add]
  · rw [exec, execAddcMI, operandM_arith rfl rfl h, arithResult_add]

/-- Settles O15: the ALU's difference without a borrow in. -/
theorem subEffect : Obligations.SubEffect := by
  unfold Obligations.SubEffect
  refine ⟨fun r m s => ⟨encodeM_eq_ofNat 0b00001#5 m r, fun h => ?_⟩,
    fun m n4 s => ⟨encodeM_eq_ofNat 0b10001#5 m n4, fun h => ?_⟩⟩
  · rw [exec, execSubRM, operandRM_arith rfl rfl h, arithResult_sub, Bool.toNat_false]
  · rw [exec, execSubMI, operandM_arith rfl rfl h, arithResult_sub, Bool.toNat_false]

/-- Settles O16: the ALU's difference with CY borrowed in. -/
theorem subcEffect : Obligations.SubcEffect := by
  unfold Obligations.SubcEffect
  refine ⟨fun r m s => ⟨encodeM_eq_ofNat 0b00011#5 m r, fun h => ?_⟩,
    fun m n4 s => ⟨encodeM_eq_ofNat 0b10011#5 m n4, fun h => ?_⟩⟩
  · rw [exec, execSubcRM, operandRM_arith rfl rfl h, arithResult_sub]
  · rw [exec, execSubcMI, operandM_arith rfl rfl h, arithResult_sub]

end Sys2Proof.Machine
end

