-- ==== Sys2Proof/Proofs/Logical.lean ====
section
/-! The effect of OR, AND, XOR (41_logical.md R150–R156): what storing a result leaves, for every
instruction that does nothing else, then the three statements. -/

namespace Sys2Proof.Machine

/-! ### Storing a result -/

/-- The store and the advance of the pc together: pc and cycle count are those of the state before
the store, which touches neither. -/
theorem storeResult_eq_next (s : State) (d : DataAddr) (v : Nibble) :
    storeResult s d v =
      .next { dataWrite s d v with pc := s.pc + 1, cycles := s.cycles + 1 } := by
  rw [storeResult, advancePc, dataWrite_pc, dataWrite_cycles]

/-- A result whose destination is a general register. -/
theorem storeResult_regAddr (s : State) (r : RegNum) (v : Nibble) :
    storeResult s (regAddr r) v =
      .next { setReg s r v with pc := s.pc + 1, cycles := s.cycles + 1 } := by
  rw [storeResult_eq_next, dataWrite_regAddr]

/-- What an instruction `r, m` that only stores a result answers once its operands are ready. -/
theorem operandRM_storeResult {i : Instr} {s : State} {r : RegNum} {m : DataAddr}
    (hmem : memOperand i = some m) (hreads : operandReads i = [regAddr r, m])
    (h : operandsReady i s = true) (v : Nibble) :
    operandRM s r m (storeResult s (regAddr r) v) =
      .next { setReg s r v with pc := s.pc + 1, cycles := s.cycles + 1 } := by
  rw [operandRM_of_operandsReady hmem hreads h, storeResult_regAddr]

/-- What an instruction `m, #n4` that only stores a result answers once its operand is ready. -/
theorem operandM_storeResult {i : Instr} {s : State} {m : DataAddr}
    (hmem : memOperand i = some m) (hreads : operandReads i = [m])
    (h : operandsReady i s = true) (v : Nibble) :
    operandM s m (storeResult s m v) =
      .next { dataWrite s m v with pc := s.pc + 1, cycles := s.cycles + 1 } := by
  rw [operandM_of_operandsReady hmem hreads h, storeResult_eq_next]

/-! ### The three statements -/

/-- Settles O21: the word's fields, the or of the operands bit by bit, the store. -/
theorem orEffect : Obligations.OrEffect := by
  unfold Obligations.OrEffect
  refine ⟨fun r m s => ⟨encodeM_eq_ofNat 0b00110#5 m r, fun h =>
      ⟨reg s r ||| dataRead s m, fun _ _ => BitVec.getLsbD_or, ?_⟩⟩,
    fun m n4 s => ⟨encodeM_eq_ofNat 0b10110#5 m n4, fun h =>
      ⟨dataRead s m ||| n4, fun _ _ => BitVec.getLsbD_or, ?_⟩⟩⟩
  · rw [exec, execOrRM, operandRM_storeResult rfl rfl h, regRead, dataRead_regAddr]
  · rw [exec, execOrMI, operandM_storeResult rfl rfl h]

/-- Settles O22: the word's fields, the and of the operands bit by bit, the store. -/
theorem andEffect : Obligations.AndEffect := by
  unfold Obligations.AndEffect
  refine ⟨fun r m s => ⟨encodeM_eq_ofNat 0b00100#5 m r, fun h =>
      ⟨reg s r &&& dataRead s m, fun _ _ => BitVec.getLsbD_and, ?_⟩⟩,
    fun m n4 s => ⟨encodeM_eq_ofNat 0b10100#5 m n4, fun h =>
      ⟨dataRead s m &&& n4, fun _ _ => BitVec.getLsbD_and, ?_⟩⟩⟩
  · rw [exec, execAndRM, operandRM_storeResult rfl rfl h, regRead, dataRead_regAddr]
  · rw [exec, execAndMI, operandM_storeResult rfl rfl h]

/-- Settles O23: the word's fields, the exclusive or of the operands bit by bit, the store. -/
theorem xorEffect : Obligations.XorEffect := by
  unfold Obligations.XorEffect
  refine ⟨fun r m s => ⟨encodeM_eq_ofNat 0b00101#5 m r, fun h =>
      ⟨reg s r ^^^ dataRead s m, fun _ _ => BitVec.getLsbD_xor, ?_⟩⟩,
    fun m n4 s => ⟨encodeM_eq_ofNat 0b10101#5 m n4, fun h =>
      ⟨dataRead s m ^^^ n4, fun _ _ => BitVec.getLsbD_xor, ?_⟩⟩⟩
  · rw [exec, execXorRM, operandRM_storeResult rfl rfl h, regRead, dataRead_regAddr]
  · rw [exec, execXorMI, operandM_storeResult rfl rfl h]

end Sys2Proof.Machine
end

