-- ==== Sys2Proof/Proofs/Compare.lean ====
section
/-! The effect of SKE, SKNE, SKGE, SKLT (42_test_compare.md R160, R163–R167): what a comparison
answers where its condition holds and where it does not, then the two statements. -/

namespace Sys2Proof.Machine

/-! ### The four instructions as comparisons -/

theorem exec_ske (m : DataAddr) (n4 : Nibble) (s : State) :
    exec (.ske m n4) s = compare s m fun v => v == n4 := rfl
theorem exec_skne (m : DataAddr) (n4 : Nibble) (s : State) :
    exec (.skne m n4) s = compare s m fun v => v != n4 := rfl
theorem exec_skge (m : DataAddr) (n4 : Nibble) (s : State) :
    exec (.skge m n4) s = compare s m fun v => decide (n4.toNat ≤ v.toNat) := rfl
theorem exec_sklt (m : DataAddr) (n4 : Nibble) (s : State) :
    exec (.sklt m n4) s = compare s m fun v => decide (v.toNat < n4.toNat) := rfl

/-! ### A comparison whose operand can be read -/

/-- A taken skip passes over one word: pc + 2 in two cycles, nothing else (R160, D13). -/
theorem skipIf_taken (s : State) :
    skipIf s true = { s with pc := s.pc + 2, cycles := s.cycles + 2 } := by
  have hpc : s.pc + 1 + 1 = s.pc + 2 := BitVec.add_assoc s.pc 1 1
  rw [skipIf, if_pos rfl, advancePc, advancePc_pc, hpc]
  rfl

/-- A skip that is not taken goes on to the next word. -/
theorem skipIf_not_taken (s : State) :
    skipIf s false = { s with pc := s.pc + 1, cycles := s.cycles + 1 } := rfl

/-- A comparison that holds skips the next word and changes nothing else (R163). -/
theorem compare_of_holds {s : State} {m : DataAddr} {cond : Nibble → Bool}
    (ha : accessible s m = true) (hm : readable s m = true) (hc : cond (dataRead s m) = true) :
    compare s m cond = .next { s with pc := s.pc + 2, cycles := s.cycles + 2 } := by
  rw [compare, operandM_of_ready ha hm, hc, skipIf_taken]

/-- A comparison that fails goes on to the next word and changes nothing else (R163). -/
theorem compare_of_fails {s : State} {m : DataAddr} {cond : Nibble → Bool}
    (ha : accessible s m = true) (hm : readable s m = true) (hc : cond (dataRead s m) = false) :
    compare s m cond = .next { s with pc := s.pc + 1, cycles := s.cycles + 1 } := by
  rw [compare, operandM_of_ready ha hm, hc, skipIf_not_taken]

/-! ### The two statements -/

/-- Settles O26: SKE and SKNE test one equality with opposite outcomes. -/
theorem equalitySkips : Obligations.EqualitySkips := by
  unfold Obligations.EqualitySkips
  refine fun m n4 s => ⟨encodeM_eq_ofNat 0b01001#5 m n4, encodeM_eq_ofNat 0b01011#5 m n4,
    fun ha hm heq => ?equal, fun ha hm hne => ?unequal⟩
  all_goals rw [exec_ske, exec_skne]
  case equal =>
    have hv : dataRead s m = n4 := BitVec.eq_of_toNat_eq heq
    exact ⟨compare_of_holds ha hm (beq_iff_eq.mpr hv),
      compare_of_fails ha hm (bne_eq_false_iff_eq.mpr hv)⟩
  case unequal =>
    have hv : dataRead s m ≠ n4 := fun h => hne (congrArg BitVec.toNat h)
    exact ⟨compare_of_fails ha hm (beq_eq_false_iff_ne.mpr hv),
      compare_of_holds ha hm (bne_iff_ne.mpr hv)⟩

/-- Settles O27: SKGE and SKLT test one unsigned order with opposite outcomes. -/
theorem orderSkips : Obligations.OrderSkips := by
  unfold Obligations.OrderSkips
  refine fun m n4 s => ⟨encodeM_eq_ofNat 0b11001#5 m n4, encodeM_eq_ofNat 0b11011#5 m n4,
    fun ha hm hge => ?atLeast, fun ha hm hlt => ?less⟩
  all_goals rw [exec_skge, exec_sklt]
  case atLeast =>
    exact ⟨compare_of_holds ha hm (decide_eq_true hge),
      compare_of_fails ha hm (decide_eq_false (Nat.not_lt.mpr hge))⟩
  case less =>
    exact ⟨compare_of_fails ha hm (decide_eq_false (Nat.not_le.mpr hlt)),
      compare_of_holds ha hm (decide_eq_true hlt)⟩

end Sys2Proof.Machine
end

