-- ==== Sys2Proof/Proofs/Sequencing.lean ====
section
/-! Where the pc goes and in how many cycles (10_state.md R22, 44_branch_subroutine.md R190,
70_reset_and_hazards.md R285): what each shared way to end an instruction does to the two, then the
instructions that only advance the pc, then those that load or clear it. -/

namespace Sys2Proof.Machine

/-! ### Advancing the pc -/

/-- From `s` to `t` the pc advances by `k` words modulo 512, in `k` cycles (R22, R285). -/
def Advances (k : Nat) (s t : State) : Prop :=
  t.pc.toNat = (s.pc.toNat + k) % 512 ∧ t.cycles = s.cycles + k

theorem advances_of_eq {k : Nat} {s t : State} (hpc : t.pc = s.pc + BitVec.ofNat 9 k)
    (hcyc : t.cycles = s.cycles + k) : Advances k s t :=
  ⟨by rw [hpc, BitVec.toNat_add, BitVec.toNat_ofNat, Nat.add_mod_mod], hcyc⟩

@[simp] theorem arithCommit_pc (s : State) (d : DataAddr) (o : Bool × Nibble) :
    (arithCommit s d o).pc = s.pc := by
  obtain ⟨-, hcommit⟩ | ⟨-, hcommit⟩ := arithCommit_cases s d o <;> simp [hcommit]

@[simp] theorem arithCommit_cycles (s : State) (d : DataAddr) (o : Bool × Nibble) :
    (arithCommit s d o).cycles = s.cycles := by
  obtain ⟨-, hcommit⟩ | ⟨-, hcommit⟩ := arithCommit_cases s d o <;> simp [hcommit]

theorem arith_advances {op : ArithOp} {s t : State} {d : DataAddr} {a b : Nibble} {c : Bool}
    (h : arith op s d a b c = .next t) : Advances 1 s t := by
  cases h
  exact advances_of_eq (by simp) (by simp)

theorem storeResult_advances {s t : State} {d : DataAddr} {v : Nibble}
    (h : storeResult s d v = .next t) : Advances 1 s t := by
  cases h
  exact advances_of_eq (by simp) (by simp)

/-- A skip advances by one word or, taken, by two. -/
theorem skipIf_advances (s : State) (cond : Bool) :
    Advances 1 s (skipIf s cond) ∨ Advances 2 s (skipIf s cond) := by
  cases cond with
  | false => exact .inl (advances_of_eq rfl rfl)
  | true =>
    rw [skipIf_taken]
    exact .inr (advances_of_eq rfl rfl)

theorem compare_advances {s t : State} {m : DataAddr} {cond : Nibble → Bool}
    (h : compare s m cond = .next t) : Advances 1 s t ∨ Advances 2 s t := by
  obtain ⟨-, -, hrest⟩ := operandM_next h
  cases hrest
  exact skipIf_advances s _

/-- Resetting CMP leaves pc and cycle count alone. -/
theorem bitTest_advances {s t : State} {m : DataAddr} {cond : Nibble → Bool}
    (h : bitTest s m cond = .next t) : Advances 1 s t ∨ Advances 2 s t := by
  obtain ⟨-, -, hrest⟩ := operandM_next h
  cases hrest
  exact skipIf_advances { s with cmp := false } _

theorem execRorc_advances {r : RegNum} {s t : State} (h : execRorc r s = .next t) :
    Advances 1 s t := by
  obtain ⟨-, hrest⟩ := reading_next h
  cases hrest
  exact advances_of_eq (by simp [regWrite]) (by simp [regWrite])

/-- HALT goes on to the next word, whatever mode it leaves the machine in (45_others.md R201). -/
theorem execHalt_advances {cond : Nibble} {s t : State} (h : execHalt cond s = .next t) :
    Advances 1 s t := by
  unfold execHalt at h
  split at h
  · cases h
    exact advances_of_eq rfl rfl
  · cases h

/-- An instruction that neither loads the pc nor is a STOP advances by one word; only a skip can
advance by two. -/
theorem exec_advances {i : Instr} {s t : State} (h : exec i s = .next t)
    (hstop : ∀ c, i ≠ .stop c) (hload : ¬ loadsPc i) :
    Advances 1 s t ∨ (isSkip i ∧ Advances 2 s t) := by
  cases i with
  | addRM r m | addcRM r m | subRM r m | subcRM r m =>
    obtain ⟨-, -, -, hrest⟩ := operandRM_next h
    exact .inl (arith_advances hrest)
  | addMI m n4 | addcMI m n4 | subMI m n4 | subcMI m n4 =>
    obtain ⟨-, -, hrest⟩ := operandM_next h
    exact .inl (arith_advances hrest)
  | orRM r m | andRM r m | xorRM r m =>
    obtain ⟨-, -, -, hrest⟩ := operandRM_next h
    exact .inl (storeResult_advances hrest)
  | orMI m n4 | andMI m n4 | xorMI m n4 | ld r m =>
    obtain ⟨-, -, hrest⟩ := operandM_next h
    exact .inl (storeResult_advances hrest)
  | st m r =>
    obtain ⟨-, hread⟩ := checked_next h
    obtain ⟨-, hrest⟩ := reading_next hread
    exact .inl (storeResult_advances hrest)
  | mov m n4 =>
    obtain ⟨-, hrest⟩ := checked_next h
    exact .inl (storeResult_advances hrest)
  | skt m n | skf m n =>
    rw [exec] at h
    exact (bitTest_advances h).imp_right fun h2 => ⟨.inl ⟨m, n, by simp⟩, h2⟩
  | ske m n4 | skne m n4 | skge m n4 | sklt m n4 =>
    rw [exec] at h
    exact (compare_advances h).imp_right fun h2 => ⟨.inr (.inl ⟨m, n4, by simp⟩), h2⟩
  | rorc r => exact .inl (execRorc_advances h)
  | halt cond => exact .inl (execHalt_advances h)
  | nop =>
    cases h
    exact .inl (advances_of_eq rfl rfl)
  | stop cond => exact absurd rfl (hstop cond)
  | br addr => exact absurd (.inl ⟨addr, .inl rfl⟩) hload
  | call addr => exact absurd (.inl ⟨addr, .inr rfl⟩) hload
  | ret => exact absurd (.inr (.inl rfl)) hload
  | retsk => exact absurd (.inr (.inr rfl)) hload

/-! ### Loading and clearing the pc -/

/-- A branch operand whose high-order two bits are 0 is its own 9-bit target (30_encoding.md
R108). -/
theorem branchTarget_toNat {addr : BitVec 11} (h : branchOperandOk addr = true) :
    (branchTarget addr).toNat = addr.toNat := by
  have hlt : addr.toNat < 2 ^ 11 := addr.isLt
  have hhigh : (addr.extractLsb' 9 2).toNat = 0 := congrArg BitVec.toNat (beq_iff_eq.mp h)
  rw [BitVec.extractLsb'_toNat, Nat.shiftRight_eq_div_pow] at hhigh
  rw [branchTarget, BitVec.extractLsb'_toNat, Nat.shiftRight_zero]
  omega

/-- BR answered a next state: its operand was well formed (R191). -/
theorem execBr_next {addr : BitVec 11} {s t : State} (h : execBr addr s = .next t) :
    branchOperandOk addr = true ∧ t = jumpTo s (branchTarget addr) := by
  unfold execBr at h
  split at h
  · cases h
    exact ⟨‹_›, rfl⟩
  · cases h

/-- CALL answered a next state: its operand was well formed and the stack level free (R192). -/
theorem execCall_next {addr : BitVec 11} {s t : State} (h : execCall addr s = .next t) :
    branchOperandOk addr = true ∧ s.depth ≠ 1 ∧
      t = jumpTo { s with asr := s.pc + 1, depth := 1 } (branchTarget addr) := by
  unfold execCall at h
  split at h
  · split at h
    · cases h
    · cases h
      exact ⟨‹_›, ‹_›, rfl⟩
  · cases h

/-- RET answered a next state: a return address was held (R193). -/
theorem execRet_next {s t : State} (h : execRet s = .next t) :
    s.depth ≠ 0 ∧ t = jumpTo { s with depth := 0 } s.asr := by
  unfold execRet at h
  split at h
  · cases h
  · cases h
    exact ⟨‹_›, rfl⟩

/-- RETSK answered a next state: a return address was held (R194). -/
theorem execRetsk_next {s t : State} (h : execRetsk s = .next t) :
    s.depth ≠ 0 ∧ t = advancePc (jumpTo { s with depth := 0 } s.asr) := by
  unfold execRetsk at h
  split at h
  · cases h
  · cases h
    exact ⟨‹_›, rfl⟩

/-- Two operands of STOP and HALT have their high-order three bits 0 (30_encoding.md R109). -/
theorem standbyOperandOk_iff (cond : Nibble) :
    standbyOperandOk cond = true ↔ cond = 0 ∨ cond = 1 := by
  revert cond
  decide

/-- The two ways STOP answers a next state (45_others.md R202, 60_exceptions.md R258). -/
theorem execStop_next {cond : Nibble} {s t : State} (h : execStop cond s = .next t) :
    (cond = 0 ∧ t = { initialise (advancePc s) with mode := .stop false }) ∨
    (cond = 1 ∧ t = { advancePc s with mode := enterUnlessHigh s .p0b1 (.stop true) }) := by
  unfold execStop at h
  split at h
  · rename_i hok
    obtain rfl | rfl := (standbyOperandOk_iff cond).mp hok
    · cases h
      exact .inl ⟨rfl, rfl⟩
    · cases h
      exact .inr ⟨rfl, rfl⟩
  · cases h

/-- BR and CALL go to their operand in one cycle. -/
theorem exec_br_or_call_sequencing {i : Instr} {addr : BitVec 11} {s t : State}
    (h : exec i s = .next t) (hi : i = .br addr ∨ i = .call addr) :
    t.pc.toNat = addr.toNat ∧ t.cycles = s.cycles + 1 := by
  obtain rfl | rfl := hi
  · obtain ⟨hok, rfl⟩ := execBr_next h
    exact ⟨branchTarget_toNat hok, rfl⟩
  · obtain ⟨hok, -, rfl⟩ := execCall_next h
    exact ⟨branchTarget_toNat hok, rfl⟩

/-- RETSK passes over the word at the return address: one word more than RET, in two cycles. -/
theorem exec_retsk_sequencing {s t : State} (h : exec .retsk s = .next t) :
    t.pc.toNat = (s.asr.toNat + 1) % 512 ∧ t.cycles = s.cycles + 2 := by
  obtain ⟨-, rfl⟩ := execRetsk_next h
  exact ⟨BitVec.toNat_add s.asr 1, rfl⟩

/-- `STOP 0000B` clears the pc (R258, D24). -/
theorem exec_stop_zero_sequencing {s t : State} (h : exec (.stop 0) s = .next t) :
    t.pc = 0 ∧ t.cycles = s.cycles + 1 := by
  obtain ⟨-, rfl⟩ | ⟨hone, -⟩ := execStop_next h
  · exact ⟨rfl, rfl⟩
  · exact absurd hone (by decide)

/-- Every other STOP that answers is `STOP 0001B`, which goes on to the next word. -/
theorem exec_stop_advances {cond : Nibble} {s t : State} (h : exec (.stop cond) s = .next t)
    (hcond : cond ≠ 0) : Advances 1 s t := by
  obtain ⟨hzero, -⟩ | ⟨-, rfl⟩ := execStop_next h
  · exact absurd hzero hcond
  · exact advances_of_eq rfl rfl

/-! ### The statement -/

/-- Settles O51, one lemma per clause. -/
theorem sequencingAndCycles : Obligations.SequencingAndCycles := by
  unfold Obligations.SequencingAndCycles
  intro i s t h
  refine ⟨exec_advances h, fun addr hi => exec_br_or_call_sequencing h hi, ?ret, ?retsk, ?stopZero,
    ?stopOther⟩
  case ret =>
    rintro rfl
    obtain ⟨-, rfl⟩ := execRet_next h
    exact ⟨rfl, rfl⟩
  case retsk =>
    rintro rfl
    exact exec_retsk_sequencing h
  case stopZero =>
    rintro rfl
    exact exec_stop_zero_sequencing h
  case stopOther =>
    rintro cond rfl hcond
    exact exec_stop_advances h hcond

end Sys2Proof.Machine
end

