-- ==== Sys2Proof/Proofs/Rotation.lean ====
section
/-! The effect of RORC (43_rotation_transfer.md R180): the word of a format `X` instruction, the
rotation on natural numbers, what RORC answers once its register can be read, then the statement. -/

namespace Sys2Proof

/-- Format `X` is laid out as `RM` and `MI` under opcode 00111 with the sub-opcode fields
in the place of `m` (30_encoding.md R102, R104). -/
theorem encodeX_eq_encodeM (fHi : BitVec 3) (fMid lo : Nibble) :
    encodeX fHi fMid lo = encodeM 0b00111#5 (fHi ++ fMid) lo := by
  rw [encodeX, encodeM, BitVec.append_assoc (x₂ := fHi) (x₃ := fMid), BitVec.cast_eq]

end Sys2Proof

namespace Sys2Proof.Machine

/-! ### An operand that is ready -/

/-- Every nibble an instruction reads is readable once its operands are ready. -/
theorem readable_of_operandsReady {i : Instr} {s : State} {a : DataAddr}
    (h : operandsReady i s = true) (ha : a ∈ operandReads i) : readable s a = true := by
  rw [operandsReady, Bool.and_eq_true] at h
  obtain ⟨-, hreads⟩ := h
  exact List.all_eq_true.mp hreads a ha

/-! ### The rotation on natural numbers -/

/-- The old bits 3 to 1 move one place down and CY enters with weight 8. -/
theorem rotatedRight_toNat (v : Nibble) (c : Bool) :
    (rotatedRight v c).toNat = v.toNat / 2 + 8 * c.toNat := by
  have hv : v.toNat < 16 := v.isLt
  have hlow : (v.extractLsb' 1 3).toNat = v.toNat / 2 := by
    rw [BitVec.extractLsb'_toNat, Nat.shiftRight_eq_div_pow]
    omega
  have happend : (rotatedRight v c).toNat = c.toNat <<< 3 + (v.extractLsb' 1 3).toNat := by
    rw [Nat.shiftLeft_add_eq_or_of_lt (v.extractLsb' 1 3).isLt, rotatedRight,
      BitVec.toNat_append, BitVec.toNat_ofBool]
  rw [happend, hlow, Nat.shiftLeft_eq]
  omega

/-- The bit that leaves for CY is the parity of the register. -/
theorem getLsbD_zero_eq_parity (v : Nibble) : v.getLsbD 0 = decide (v.toNat % 2 = 1) := by
  rw [BitVec.getLsbD, Nat.testBit_zero]

/-! ### The instruction -/

theorem regRead_eq_reg (s : State) (r : RegNum) : regRead s r = reg s r := dataRead_regAddr s r

theorem regWrite_eq_setReg (s : State) (r : RegNum) (v : Nibble) :
    regWrite s r v = setReg s r v := dataWrite_regAddr s r v

/-- The new CY is set before the store, which does not touch it: a general register lies outside
the PSWORD. -/
theorem exec_rorc_of_readable {s : State} {r : RegNum} (h : readable s (regAddr r) = true) :
    exec (.rorc r) s = .next { setReg s r (rotatedRight (reg s r) s.cy) with
      cy := (reg s r).getLsbD 0, pc := s.pc + 1, cycles := s.cycles + 1 } := by
  rw [exec, execRorc, reading_of_readable h, regRead_eq_reg, regWrite_eq_setReg]
  rfl

/-! ### The statement -/

/-- Settles O28: the word's fields, the rotation as arithmetic, the store. -/
theorem rorcEffect : Obligations.RorcEffect := by
  unfold Obligations.RorcEffect
  refine fun r s => ⟨?word, fun h => ⟨rotatedRight (reg s r) s.cy, rotatedRight_toNat _ _, ?effect⟩⟩
  case word =>
    exact (encodeX_eq_encodeM 0b000#3 0b0111#4 r).trans (encodeM_eq_ofNat 0b00111#5 _ r)
  case effect =>
    have hr : readable s (regAddr r) = true :=
      readable_of_operandsReady h (List.mem_singleton_self _)
    rw [exec_rorc_of_readable hr, getLsbD_zero_eq_parity]

end Sys2Proof.Machine
end

