-- ==== Sys2Proof/Proofs/Subroutine.lean ====
section
/-! CALL and the two returns together (44_branch_subroutine.md R192–R194): what CALL leaves on the
stack, what RET and RETSK answer while a return address is held, then the statement. -/

namespace Sys2Proof.Machine

/-- CALL takes the one stack level, which was free, and saves the address of the next word in it
(R192, D2, D3). -/
theorem exec_call_stack {addr : BitVec 11} {s t : State} (h : exec (.call addr) s = .next t) :
    s.depth = 0 ∧ t.depth = 1 ∧ t.asr = s.pc + 1 := by
  obtain ⟨-, hfree, rfl⟩ := execCall_next h
  have hempty : s.depth = 0 := by omega
  exact ⟨hempty, rfl, rfl⟩

/-- RET answers whenever a return address is held (R193). -/
theorem exec_ret_of_held {s : State} (h : s.depth = 1) :
    exec .ret s = .next (jumpTo { s with depth := 0 } s.asr) := by
  have hheld : s.depth ≠ 0 := by rw [h]; decide
  exact if_neg hheld

/-- RETSK answers whenever a return address is held (R194). -/
theorem exec_retsk_of_held {s : State} (h : s.depth = 1) :
    exec .retsk s = .next (advancePc (jumpTo { s with depth := 0 } s.asr)) := by
  have hheld : s.depth ≠ 0 := by rw [h]; decide
  exact if_neg hheld

/-- Settles O36: the subroutine keeps what CALL left on the stack, and both returns start from
that. -/
theorem callThenReturn : Obligations.CallThenReturn := by
  unfold Obligations.CallThenReturn
  intro addr s t u hcall hasr hdepth
  obtain ⟨hempty, hheld, hsaved⟩ := exec_call_stack hcall
  have hret : u.asr = s.pc + 1 := hasr.trans hsaved
  have huHeld : u.depth = 1 := hdepth.trans hheld
  have hnext : u.asr.toNat = (s.pc.toNat + 1) % 512 := by rw [hret]; exact BitVec.toNat_add s.pc 1
  refine ⟨⟨_, exec_ret_of_held huHeld, hnext, hempty.symm⟩,
    ⟨_, exec_retsk_of_held huHeld, ?afterSkip, hempty.symm⟩⟩
  case afterSkip =>
    obtain ⟨hskip, -⟩ := exec_retsk_sequencing (exec_retsk_of_held huHeld)
    rw [hskip, hnext, Nat.mod_add_mod]

end Sys2Proof.Machine
end

