-- ==== Sys2Proof/Proofs/Others.lean ====
section
/-! NOP (45_others.md R200): the sequential advance it is made of, then the statement. -/

namespace Sys2Proof.Machine

/-- The next program address wraps at the end of the 512 words (R22, D4). -/
theorem pc_add_one_eq_ofNat (a : ProgAddr) : a + 1 = BitVec.ofNat 9 ((a.toNat + 1) % 512) := by
  have hwrap : (a + 1).toNat = (a.toNat + 1) % 512 := BitVec.toNat_add a 1
  rw [← hwrap, BitVec.ofNat_toNat, BitVec.setWidth_eq]

/-- NOP is the sequential advance alone, in every state (R200). -/
theorem exec_nop (s : State) : exec .nop s = .next (advancePc s) := rfl

/-- Settles O37: the word's fixed fields, and the advance with its wrap written out. -/
theorem nopEffect : Obligations.NopEffect := by
  unfold Obligations.NopEffect
  refine fun s => ⟨?word, ?effect⟩
  case word =>
    exact (encodeX_eq_encodeM 0b100#3 0b1111#4 0).trans (encodeM_eq_ofNat 0b00111#5 _ 0)
  case effect => rw [exec_nop, advancePc, pc_add_one_eq_ofNat]

end Sys2Proof.Machine
end

