-- ==== Sys2Proof/Proofs/Pins.lean ====
section
/-! What the chip contributes to its pins (60_exceptions.md R244, R245): the two output circuits, the
built-in pull-up, then the drive table. -/

namespace Sys2Proof.Machine

/-! ### The two output circuits -/

/-- The N-ch open-drain rows of R244. -/
theorem openDrainDrive_table (out bit : Bool) :
    (out = false → openDrainDrive out bit = .hiZ) ∧
    (out = true → bit = true → openDrainDrive out bit = .hiZ) ∧
    (out = true → bit = false → openDrainDrive out bit = .low) := by
  refine ⟨?input, ?released, ?low⟩
  case input => rintro rfl; rfl
  case released => rintro rfl rfl; rfl
  case low => rintro rfl rfl; rfl

/-- The CMOS push-pull rows of R244. -/
theorem pushPullDrive_table (out bit : Bool) :
    (out = false → pushPullDrive out bit = .hiZ) ∧
    (out = true → bit = true → pushPullDrive out bit = .high) ∧
    (out = true → bit = false → pushPullDrive out bit = .low) := by
  refine ⟨?input, ?high, ?low⟩
  case input => rintro rfl; rfl
  case high => rintro rfl rfl; rfl
  case low => rintro rfl rfl; rfl

/-- An open drain never drives high. -/
theorem openDrainDrive_of_ne_low {out bit : Bool} (h : openDrainDrive out bit ≠ .low) :
    openDrainDrive out bit = .hiZ := by
  unfold openDrainDrive at h ⊢
  split
  · rename_i hlow
    exact absurd (if_pos hlow) h
  · rfl

/-! ### The pull-up -/

/-- Only a pin with an open drain, or RESET, can have a pull-up, so the chip never drives one
high. -/
theorem chipDrive_of_hasPullUp {s : State} {p : Pin} (hup : hasPullUp s.chip p = true)
    (hlow : chipDrive s p ≠ .low) : chipDrive s p = .hiZ := by
  cases p with
  | p0b0 | p0b1 | p0b2 => exact openDrainDrive_of_ne_low hlow
  | p0c0 | p0c1 | p0c2 | p0c3 | p0d0 | p0d1 | p0d2 | p0d3 => cases hup
  | reset => rfl

/-- A pin that follows its latch is left to the environment where the chip does not drive it
(R245 (a)). -/
theorem pinLevel_of_chipDrive_hiZ {s : State} {p : Pin} (hfollow : s.chip.pinFollowsLatch = true)
    (hchip : chipDrive s p = .hiZ) : pinLevel s p = undrivenLevel s p := by
  rw [pinLevel, if_pos hfollow, hchip]

theorem undrivenLevel_of_hasPullUp {s : State} {p : Pin} (hup : hasPullUp s.chip p = true)
    (henv : (currentSample s).drive p = .hiZ) : undrivenLevel s p = true := by
  simp only [undrivenLevel, henv, hup, if_true]

/-- A pull-up decides a pin that neither the chip drives low nor the environment drives (R244). -/
theorem pinLevel_of_hasPullUp {s : State} {p : Pin} (hup : hasPullUp s.chip p = true)
    (hlow : chipDrive s p ≠ .low) (hfollow : s.chip.pinFollowsLatch = true)
    (henv : (currentSample s).drive p = .hiZ) : pinLevel s p = true :=
  (pinLevel_of_chipDrive_hiZ hfollow (chipDrive_of_hasPullUp hup hlow)).trans
    (undrivenLevel_of_hasPullUp hup henv)

/-! ### The statement -/

/-- Settles O9: each listed pin has one of the two output circuits, and each listed mask option is a
pull-up of its pin. -/
theorem chipDriveTable : Obligations.ChipDriveTable := by
  unfold Obligations.ChipDriveTable
  intro s p out bit
  simp only [List.mem_cons, Prod.mk.injEq, List.not_mem_nil, or_false]
  refine ⟨?openDrain, ?pushPull, ?pullUp⟩
  case openDrain =>
    intro hpin
    have hdrive : chipDrive s p = openDrainDrive out bit := by
      rcases hpin with ⟨rfl, rfl, rfl⟩ | ⟨rfl, rfl, rfl⟩ | ⟨rfl, rfl, rfl⟩ <;> rfl
    rw [hdrive]
    exact openDrainDrive_table out bit
  case pushPull =>
    intro hpin
    have hdrive : chipDrive s p = pushPullDrive out bit := by
      rcases hpin with ⟨rfl, rfl, rfl⟩ | ⟨rfl, rfl, rfl⟩ | ⟨rfl, rfl, rfl⟩ | ⟨rfl, rfl, rfl⟩ |
        ⟨rfl, rfl, rfl⟩ | ⟨rfl, rfl, rfl⟩ | ⟨rfl, rfl, rfl⟩ | ⟨rfl, rfl, rfl⟩ <;> rfl
    rw [hdrive]
    exact pushPullDrive_table out bit
  case pullUp =>
    intro hopt
    have hup : hasPullUp s.chip p = true := by
      rcases hopt with ⟨rfl, h⟩ | ⟨rfl, h⟩ | ⟨rfl, h⟩ <;> exact beq_iff_eq.mpr h
    exact pinLevel_of_hasPullUp hup

end Sys2Proof.Machine
end

