-- ==== Sys2Proof/Proofs/Standby.lean ====
section
/-! The standby modes (60_exceptions.md R252, R257, R260, R261): what a step in one does, which
instructions change the mode, then how a mode is entered and left. -/

namespace Sys2Proof.Machine

/-- One of the four standby modes. -/
def InStandby (s : State) : Prop := ∃ x, s.mode = .halt x ∨ s.mode = .stop x

/-- The mode can be released by a pin, and that pin reads high (R260, R261). -/
def ReleasePinHigh (s : State) : Prop :=
  (s.mode = .halt true ∧ pinLevel s .p0b0 = true) ∨
    (s.mode = .stop true ∧ pinLevel s .p0b1 = true)

/-- A standby mode that no pin releases, or whose release pin reads low (R257, R260, R261). -/
def StandbyWaits (s : State) : Prop :=
  s.mode = .halt false ∨ s.mode = .stop false ∨
    (s.mode = .halt true ∧ pinLevel s .p0b0 = false) ∨
    (s.mode = .stop true ∧ pinLevel s .p0b1 = false)

/-! ### A step in standby -/

theorem ReleasePinHigh.inStandby {s : State} (h : ReleasePinHigh s) : InStandby s := by
  obtain ⟨hmode, -⟩ | ⟨hmode, -⟩ := h
  · exact ⟨true, .inl hmode⟩
  · exact ⟨true, .inr hmode⟩

theorem StandbyWaits.inStandby {s : State} (h : StandbyWaits s) : InStandby s := by
  obtain hmode | hmode | ⟨hmode, -⟩ | ⟨hmode, -⟩ := h
  · exact ⟨false, .inl hmode⟩
  · exact ⟨false, .inr hmode⟩
  · exact ⟨true, .inl hmode⟩
  · exact ⟨true, .inr hmode⟩

theorem StandbyWaits.not_releasePinHigh {s : State} (h : StandbyWaits s) : ¬ ReleasePinHigh s := by
  rintro (⟨hmode, hpin⟩ | ⟨hmode, hpin⟩)
  · simp [StandbyWaits, hmode, hpin] at h
  · simp [StandbyWaits, hmode, hpin] at h

theorem standbyStep_of_releasePinHigh {s : State} (h : ReleasePinHigh s) :
    standbyStep s = { s with mode := .operating } := by
  obtain ⟨hmode, hpin⟩ | ⟨hmode, hpin⟩ := h
  · simp only [standbyStep, hmode, hpin, if_true]
  · simp only [standbyStep, hmode, hpin, if_true]

/-- Without its release pin high, a standby mode changes nothing. -/
theorem standbyStep_of_not_releasePinHigh {s : State} (h : ¬ ReleasePinHigh s) :
    standbyStep s = s := by
  obtain hstay | ⟨hmode, hpin, -⟩ | ⟨hmode, hpin, -⟩ := standbyStep_cases s
  · exact hstay
  · exact absurd (.inl ⟨hmode, hpin⟩) h
  · exact absurd (.inr ⟨hmode, hpin⟩) h

/-- With RESET high a step in standby is the standby logic alone (70_reset_and_hazards.md R290). -/
theorem step_of_inStandby {s : State} (hreset : resetLevel s = true) (h : InStandby s) :
    step s = .next (nextSample (standbyStep s)) := by
  obtain ⟨x, hmode | hmode⟩ := h
  · simp only [step, hreset, hmode, if_true]
  · simp only [step, hreset, hmode, if_true]

/-- Settles O44: a step in standby is the standby logic, which only a high release pin moves. -/
theorem standbyAndRelease : Obligations.StandbyAndRelease := by
  unfold Obligations.StandbyAndRelease
  refine fun s hreset => ⟨fun (hwait : StandbyWaits s) => ?waits,
    fun (hhigh : ReleasePinHigh s) => ?released⟩
  case waits =>
    rw [step_of_inStandby hreset hwait.inStandby,
      standbyStep_of_not_releasePinHigh hwait.not_releasePinHigh, nextSample]
  case released =>
    rw [step_of_inStandby hreset hhigh.inStandby, standbyStep_of_releasePinHigh hhigh, nextSample]

/-! ### Instructions and reset -/

@[simp] theorem arithCommit_mode (s : State) (d : DataAddr) (o : Bool × Nibble) :
    (arithCommit s d o).mode = s.mode := by
  obtain ⟨-, hcommit⟩ | ⟨-, hcommit⟩ := arithCommit_cases s d o <;> simp [hcommit]

@[simp] theorem skipIf_mode (s : State) (cond : Bool) : (skipIf s cond).mode = s.mode := by
  obtain ⟨-, hskip⟩ | ⟨-, hskip⟩ := skipIf_cases s cond <;> rw [hskip]

theorem arith_mode {op : ArithOp} {s t : State} {d : DataAddr} {a b : Nibble} {c : Bool}
    (h : arith op s d a b c = .next t) : t.mode = s.mode := by
  cases h
  rw [advancePc_mode, arithCommit_mode]

theorem storeResult_mode {s t : State} {d : DataAddr} {v : Nibble}
    (h : storeResult s d v = .next t) : t.mode = s.mode := by
  cases h
  rw [advancePc_mode, dataWrite_mode]

theorem compare_mode {s t : State} {m : DataAddr} {cond : Nibble → Bool}
    (h : compare s m cond = .next t) : t.mode = s.mode := by
  obtain ⟨-, -, hrest⟩ := operandM_next h
  cases hrest
  exact skipIf_mode s _

theorem bitTest_mode {s t : State} {m : DataAddr} {cond : Nibble → Bool}
    (h : bitTest s m cond = .next t) : t.mode = s.mode := by
  obtain ⟨-, -, hrest⟩ := operandM_next h
  cases hrest
  exact skipIf_mode { s with cmp := false } _

theorem execRorc_mode {r : RegNum} {s t : State} (h : execRorc r s = .next t) :
    t.mode = s.mode := by
  obtain ⟨-, hrest⟩ := reading_next h
  cases hrest
  rw [advancePc_mode, regWrite, dataWrite_mode]

/-- Only HALT and STOP can change the run mode. -/
theorem exec_mode {i : Instr} {s t : State} (h : exec i s = .next t) :
    (∃ c, i = .halt c ∨ i = .stop c) ∨ t.mode = s.mode := by
  cases i with
  | addRM r m | addcRM r m | subRM r m | subcRM r m =>
    obtain ⟨-, -, -, hrest⟩ := operandRM_next h
    exact .inr (arith_mode hrest)
  | addMI m n4 | addcMI m n4 | subMI m n4 | subcMI m n4 =>
    obtain ⟨-, -, hrest⟩ := operandM_next h
    exact .inr (arith_mode hrest)
  | orRM r m | andRM r m | xorRM r m =>
    obtain ⟨-, -, -, hrest⟩ := operandRM_next h
    exact .inr (storeResult_mode hrest)
  | orMI m n4 | andMI m n4 | xorMI m n4 | ld r m =>
    obtain ⟨-, -, hrest⟩ := operandM_next h
    exact .inr (storeResult_mode hrest)
  | st m r =>
    obtain ⟨-, hread⟩ := checked_next h
    obtain ⟨-, hrest⟩ := reading_next hread
    exact .inr (storeResult_mode hrest)
  | mov m n4 =>
    obtain ⟨-, hrest⟩ := checked_next h
    exact .inr (storeResult_mode hrest)
  | skt m n | skf m n =>
    rw [exec] at h
    exact .inr (bitTest_mode h)
  | ske m n4 | skne m n4 | skge m n4 | sklt m n4 =>
    rw [exec] at h
    exact .inr (compare_mode h)
  | rorc r => exact .inr (execRorc_mode h)
  | br addr =>
    obtain ⟨-, rfl⟩ := execBr_next h
    exact .inr rfl
  | call addr =>
    obtain ⟨-, -, rfl⟩ := execCall_next h
    exact .inr rfl
  | ret =>
    obtain ⟨-, rfl⟩ := execRet_next h
    exact .inr rfl
  | retsk =>
    obtain ⟨-, rfl⟩ := execRetsk_next h
    exact .inr rfl
  | stop cond => exact .inl ⟨cond, .inr rfl⟩
  | halt cond => exact .inl ⟨cond, .inl rfl⟩
  | nop =>
    cases h
    exact .inr rfl

@[simp] theorem takeReset_mode (s : State) : (takeReset s).mode = .resetHeld := by
  obtain ⟨-, hreset⟩ | ⟨-, hreset⟩ | ⟨hheld, hreset⟩ := takeReset_cases s
  · rw [hreset, holdReset_mode]
  · rw [hreset, holdReset_mode]
  · rw [hreset, hheld]

/-! ### Entry and exit -/

/-- A standby mode is entered by an instruction, HALT or STOP. -/
theorem step_enters_standby {s t : State} (h : step s = .next t) (ht : InStandby t)
    (hne : t.mode ≠ s.mode) : ∃ c, Runs s (.halt c) ∨ Runs s (.stop c) := by
  obtain ⟨x, ht⟩ := ht
  obtain ⟨-, rfl⟩ | ⟨-, -, rfl⟩ | ⟨-, -, rfl⟩ | ⟨i, u, hruns, hexec, rfl⟩ := step_cases h
  · rw [nextSample_mode, takeReset_mode] at ht
    simp at ht
  · rw [nextSample_mode] at ht
    simp at ht
  · by_cases hhigh : ReleasePinHigh s
    · rw [standbyStep_of_releasePinHigh hhigh, nextSample_mode] at ht
      simp at ht
    · rw [standbyStep_of_not_releasePinHigh hhigh, nextSample_mode] at hne
      exact absurd rfl hne
  · obtain ⟨c, rfl | rfl⟩ | hmode := exec_mode hexec
    · exact ⟨c, .inl hruns⟩
    · exact ⟨c, .inr hruns⟩
    · exact absurd hmode hne

/-- A standby mode is left by a low RESET or a high release pin. -/
theorem step_leaves_standby {s t : State} (h : step s = .next t) (hs : InStandby s)
    (hne : t.mode ≠ s.mode) : resetLevel s = false ∨ ReleasePinHigh s := by
  cases hreset : resetLevel s with
  | false => exact .inl rfl
  | true =>
    rw [step_of_inStandby hreset hs] at h
    cases h
    by_cases hhigh : ReleasePinHigh s
    · exact .inr hhigh
    · rw [standbyStep_of_not_releasePinHigh hhigh, nextSample_mode] at hne
      exact absurd rfl hne

/-- Settles O57: entry and exit separately, from what each kind of step does to the mode. -/
theorem standbyEntryAndExit : Obligations.StandbyEntryAndExit := by
  unfold Obligations.StandbyEntryAndExit
  exact fun s t h => ⟨step_enters_standby h, step_leaves_standby h⟩

end Sys2Proof.Machine
end

