-- ==== Sys2Proof/Proofs/Codec.lean ====
section
/-! Decoding and encoding are inverse to each other (30_encoding.md R100–R104), and which words have
no instruction (R110, R111). -/

namespace Sys2Proof

/-! ### Encoding, then decoding -/

/-- Settles O1: the fields of an encoded word are its operands, and its opcode (with its sub-opcode)
selects the arm it was encoded for. -/
theorem decodeEncodeRoundTrip : Obligations.DecodeEncodeRoundTrip := by
  unfold Obligations.DecodeEncodeRoundTrip
  intro i
  cases i with
  | addRM r m | addcRM r m | subRM r m | subcRM r m | orRM r m | andRM r m | xorRM r m | ld r m
  | st m r | addMI m n | addcMI m n | subMI m n | subcMI m n | orMI m n | andMI m n | xorMI m n
  | skt m n | skf m n | ske m n | skne m n | skge m n | sklt m n | mov m n =>
    simp only [encode, decode, opField_encodeM, mField_encodeM, loField_encodeM]
  | br addr | call addr =>
    simp only [encode, decode, opField_encodeA, addrField_encodeA]
  | rorc lo | stop lo | halt lo | ret | retsk | nop =>
    simp only [encode, decode, opField_encodeX, hiField_encodeX, midField_encodeX, loField_encodeX,
      decodeGroup, if_true]

/-- Settles O3: each word, written out, is the word of its instruction. -/
theorem specWordsDecode : Obligations.SpecWordsDecode := by
  unfold Obligations.SpecWordsDecode
  exact ⟨decodeEncodeRoundTrip (.andMI 0x71 0b1011), decodeEncodeRoundTrip (.mov 0x7F 0b0100),
    decodeEncodeRoundTrip (.br 0x012), decodeEncodeRoundTrip (.rorc 1),
    decodeEncodeRoundTrip (.addRM 2 0x05), decodeEncodeRoundTrip (.subcMI 0x02 0b0010),
    decodeEncodeRoundTrip (.skt 0x7F 0b0010), decodeEncodeRoundTrip (.sklt 0x01 0b1001),
    decodeEncodeRoundTrip (.stop 1)⟩

/-! ### Decoding, then encoding -/

/-- A word is put together again from its fields of format `A` (R101, R102). -/
theorem encodeA_of_opField {w : ProgWord} {op : BitVec 5} (h : opField w = op) :
    encodeA op (addrField w) = w := by
  rw [← h, encodeA, opField, addrField,
    BitVec.extractLsb'_append_extractLsb'_eq_extractLsb' (by decide)]
  exact BitVec.extractLsb'_eq_self

/-- The operand of format `A` is `m` and the low nibble (R101). -/
theorem addrField_eq_append (w : ProgWord) : addrField w = mField w ++ loField w := by
  rw [mField, loField, BitVec.extractLsb'_append_extractLsb'_eq_extractLsb' (by decide), addrField]

/-- A word is put together again from its fields of formats `RM` and `MI` (R101, R102). -/
theorem encodeM_of_opField {w : ProgWord} {op : BitVec 5} (h : opField w = op) :
    encodeM op (mField w) (loField w) = w := by
  have hw : op ++ (mField w ++ loField w) = w := by
    rw [← addrField_eq_append]
    exact encodeA_of_opField h
  rw [encodeM, BitVec.append_assoc, BitVec.cast_eq, hw]

/-- A word of the group 00111 is put together again from its sub-opcode fields (R101, R104). -/
theorem encodeX_of_opField {w : ProgWord} (h : opField w = 0b00111#5) :
    encodeX (hiField w) (midField w) (loField w) = w := by
  have hm : hiField w ++ midField w = mField w := by
    rw [hiField, midField, BitVec.extractLsb'_append_extractLsb'_eq_extractLsb' (by decide), mField]
  rw [encodeX_eq_encodeM, hm, encodeM_of_opField h]

/-- A word of the group that decodes is put together from the sub-opcode fields it decodes by. -/
theorem encode_of_decodeGroup {fHi : BitVec 3} {fMid fLo : Nibble} {i : Instr}
    (h : decodeGroup fHi fMid fLo = .ok i) : encode i = encodeX fHi fMid fLo := by
  unfold decodeGroup at h
  split at h
  case h_7 => cases h
  case h_1 | h_4 | h_5 =>
    cases h
    rfl
  all_goals
    split at h
    · rename_i hlo
      cases h
      rw [hlo]
      rfl
    · cases h

/-- Settles O2: the arm that the opcode selects encodes with that opcode the fields it was given. -/
theorem encodeDecodeRoundTrip : Obligations.EncodeDecodeRoundTrip := by
  unfold Obligations.EncodeDecodeRoundTrip
  intro w i h
  unfold decode at h
  split at h
  all_goals rename_i hop
  case h_8 => rw [encode_of_decodeGroup h, encodeX_of_opField hop]
  case h_12 | h_23 => cases h; exact encodeA_of_opField hop
  case h_27 => cases h
  all_goals
    cases h
    exact encodeM_of_opField hop

end Sys2Proof

namespace Sys2Proof.Machine

/-! ### Words without an instruction -/

/-- A step that cannot fetch an instruction answers the fault of the fetch (R290 line 6). -/
theorem step_of_fetch_error {s : State} {g : Fault} (hreset : resetLevel s = true)
    (hmode : s.mode = .operating) (hfetch : fetchInstr s = .error g) : step s = .fault g := by
  simp only [step, hreset, hmode, hfetch, if_true]

/-- A step that fetches a word without an instruction faults with it (R110, R111, D6). -/
theorem step_of_not_decoded {s : State} {w : ProgWord} (h : ∀ i, decode w ≠ .ok i)
    (hreset : resetLevel s = true) (hmode : s.mode = .operating)
    (hw : programWord s.rom s.pc = some w) : step s = .fault (.illegalInstruction s.pc w) := by
  have hfetch : fetchInstr s = .error (.illegalInstruction s.pc w) := by
    cases hd : decode w with
    | ok i => exact absurd hd (h i)
    | error e => simp only [fetchInstr, hw, hd]
  exact step_of_fetch_error hreset hmode hfetch

/-- The opcode as a number. -/
theorem opField_toNat (w : ProgWord) : (opField w).toNat = w.toNat / 2048 := by
  have hw : w.toNat < 2 ^ 16 := w.isLt
  rw [opField, BitVec.extractLsb'_toNat, Nat.shiftRight_eq_div_pow]
  omega

theorem opField_eq_ofNat {w : ProgWord} {k : Nat} (hk : w.toNat / 2048 = k) :
    opField w = BitVec.ofNat 5 k := by
  rw [← hk, ← opField_toNat, BitVec.ofNat_toNat, BitVec.setWidth_eq]

/-- The six opcodes that §10.1 leaves blank (R110). -/
def UnassignedOpcode (op : BitVec 5) : Prop :=
  op = 0b01010#5 ∨ op = 0b01101#5 ∨ op = 0b01110#5 ∨ op = 0b01111#5 ∨ op = 0b10111#5 ∨
    op = 0b11010#5

theorem decode_of_unassignedOpcode {w : ProgWord} (h : UnassignedOpcode (opField w)) (i : Instr) :
    decode w ≠ .ok i := by
  obtain h | h | h | h | h | h := h
  all_goals
    simp only [decode, h]
    exact nofun

/-- Settles O4: each of the six ranges is the 2048 words of one unassigned opcode. -/
theorem unassignedOpcodesFault : Obligations.UnassignedOpcodesFault := by
  unfold Obligations.UnassignedOpcodesFault
  intro w hrange
  have hop : UnassignedOpcode (opField w) := by
    obtain h | h | h | h | h | h := hrange
    · exact .inl (opField_eq_ofNat (k := 10) (by omega))
    · exact .inr (.inl (opField_eq_ofNat (k := 13) (by omega)))
    · exact .inr (.inr (.inl (opField_eq_ofNat (k := 14) (by omega))))
    · exact .inr (.inr (.inr (.inl (opField_eq_ofNat (k := 15) (by omega)))))
    · exact .inr (.inr (.inr (.inr (.inl (opField_eq_ofNat (k := 23) (by omega))))))
    · exact .inr (.inr (.inr (.inr (.inr (opField_eq_ofNat (k := 26) (by omega))))))
  have hnone := decode_of_unassignedOpcode hop
  exact ⟨hnone, fun s => step_of_not_decoded hnone⟩

/-- The 51 sub-opcodes of the group 00111 that name an instruction (R104, R111). -/
def AssignedSubcode (fHi : BitVec 3) (fMid fLo : Nibble) : Prop :=
  (fHi = 0 ∧ fMid = 7) ∨ (fHi = 0 ∧ fMid = 14 ∧ fLo = 0) ∨ (fHi = 1 ∧ fMid = 14 ∧ fLo = 0) ∨
    (fHi = 2 ∧ fMid = 15) ∨ (fHi = 3 ∧ fMid = 15) ∨ (fHi = 4 ∧ fMid = 15 ∧ fLo = 0)

theorem decodeGroup_ok_iff (fHi : BitVec 3) (fMid fLo : Nibble) :
    (∃ i, decodeGroup fHi fMid fLo = .ok i) ↔ AssignedSubcode fHi fMid fLo := by
  constructor
  · rintro ⟨i, h⟩
    unfold decodeGroup at h
    split at h
    case h_7 => cases h
    case h_1 | h_4 | h_5 => simp [AssignedSubcode]
    all_goals
      split at h
      · rename_i hlo
        simp [AssignedSubcode, hlo]
      · cases h
  · rintro (⟨rfl, rfl⟩ | ⟨rfl, rfl, rfl⟩ | ⟨rfl, rfl, rfl⟩ | ⟨rfl, rfl⟩ | ⟨rfl, rfl⟩ |
      ⟨rfl, rfl, rfl⟩)
    all_goals exact ⟨_, rfl⟩

/-- The sub-opcode of a word of the group, as numbers. -/
theorem subcode_toNat {w : ProgWord} (h : opField w = 0b00111#5) :
    w.toNat = 0x3800 + (hiField w).toNat * 256 + (midField w).toNat * 16 + (loField w).toNat := by
  have hw : w.toNat < 2 ^ 16 := w.isLt
  have hop : w.toNat / 2048 = 7 := by rw [← opField_toNat, h]; rfl
  rw [hiField, midField, loField, BitVec.extractLsb'_toNat, BitVec.extractLsb'_toNat,
    BitVec.extractLsb'_toNat, Nat.shiftRight_eq_div_pow, Nat.shiftRight_eq_div_pow,
    Nat.shiftRight_zero]
  omega

/-- Settles O5: a word of the group decodes by its sub-opcode fields, whose weights name the 51
words. -/
theorem groupWordsAssigned : Obligations.GroupWordsAssigned := by
  unfold Obligations.GroupWordsAssigned
  intro w hlow hhigh
  have hop : opField w = 0b00111#5 := opField_eq_ofNat (k := 7) (by omega)
  have hdecode : decode w = decodeGroup (hiField w) (midField w) (loField w) := by
    simp only [decode, hop]
  refine ⟨?assigned, fun h s => step_of_not_decoded h⟩
  case assigned =>
    rw [hdecode, decodeGroup_ok_iff]
    have hw := subcode_toNat hop
    have hhi := (hiField w).isLt
    have hmid := (midField w).isLt
    have hlo := (loField w).isLt
    simp only [AssignedSubcode, ← BitVec.toNat_inj, BitVec.ofNat_eq_ofNat, BitVec.toNat_ofNat]
    omega

end Sys2Proof.Machine
end

