-- ==== Sys2Proof/Proofs/DataMap.lean ====
section
/-! The data memory map (20_memory.md R63–R66): where each address leads, what a read of it gives,
what a write to it does, and how far the two touch each other. -/

namespace Sys2Proof.Machine

/-! ### Where an address leads -/

/-- The address of a location; every unmapped address is one location, so for it any will do. -/
def DataLoc.addr : DataLoc → DataAddr
  | .ram i => BitVec.ofNat 7 i
  | .port0B => 0x71
  | .port0C => 0x72
  | .port0D => 0x73
  | .bcdNibble => 0x7E
  | .psw => 0x7F
  | .unmapped => 0x10

/-- The addresses the chip does not implement (R66). -/
def Unimplemented (a : DataAddr) : Prop :=
  (0x10 ≤ a.toNat ∧ a.toNat ≤ 0x70) ∨ (0x74 ≤ a.toNat ∧ a.toNat ≤ 0x7D)

theorem locate_ofNat (i : Fin 16) : locate (BitVec.ofNat 7 i) = .ram i := by
  revert i
  decide

theorem locate_eq_unmapped_iff (a : DataAddr) : locate a = .unmapped ↔ Unimplemented a := by
  have ha : a.toNat < 2 ^ 7 := a.isLt
  simp only [locate, Unimplemented, ← BitVec.toNat_inj, BitVec.toNat_ofNat]
  split_ifs <;> simp <;> omega

/-- A mapped address is the address of the location it leads to. -/
theorem addr_locate {a : DataAddr} (h : locate a ≠ .unmapped) : (locate a).addr = a := by
  revert a
  decide

theorem eq_addr_of_locate {a : DataAddr} {l : DataLoc} (h : locate a = l) (hl : l ≠ .unmapped) :
    a = l.addr := by
  subst h
  exact (addr_locate hl).symm

/-- Two mapped addresses lead to different locations. -/
theorem locate_ne_of_ne {a b : DataAddr} (hne : b ≠ a) (ha : locate a ≠ .unmapped) :
    locate b ≠ locate a := by
  intro h
  exact hne ((eq_addr_of_locate h ha).trans (addr_locate ha))

theorem accessible_eq_false_iff (s : State) (a : DataAddr) :
    accessible s a = false ↔ s.chip.unmapped = .fault ∧ Unimplemented a := by
  rw [← locate_eq_unmapped_iff]
  cases hp : s.chip.unmapped <;> simp [accessible, hp]

/-! ### Reading and writing -/

/-- Settles O6: the location of each address, and what a read of it gives. -/
theorem dataReadMap : Obligations.DataReadMap := by
  unfold Obligations.DataReadMap
  intro s
  refine ⟨fun i => ?ram, rfl, rfl, rfl, ?bcd, rfl, accessible_eq_false_iff s⟩
  case ram => simp only [dataRead, locate_ofNat]
  case bcd =>
    have hread : dataRead s 0x7E = nibbleOf false false false s.bcd := rfl
    rw [hread]
    cases s.bcd <;> rfl

theorem dataWrite_of_unimplemented (s : State) {a : DataAddr} (h : Unimplemented a) (v : Nibble) :
    dataWrite s a v = s := by
  simp only [dataWrite, (locate_eq_unmapped_iff a).mpr h]

/-- Settles O7: the location of each address, and what a write to it does. -/
theorem dataWriteMap : Obligations.DataWriteMap := by
  unfold Obligations.DataWriteMap
  intro s v
  refine ⟨fun i => ?ram, ?port0B, rfl, rfl, rfl, rfl, fun a h => dataWrite_of_unimplemented s h v⟩
  case ram => simp only [dataWrite, locate_ofNat]
  case port0B =>
    have hlow : v.extractLsb' 0 3 = v.setWidth 3 := by
      apply BitVec.eq_of_toNat_eq
      rw [BitVec.extractLsb'_toNat, BitVec.toNat_setWidth, Nat.shiftRight_zero]
    rw [← hlow]
    rfl

/-- What one address holds does not depend on a write to another: no two locations share a field
of the state. -/
theorem dataRead_dataWrite_of_ne (s : State) {a b : DataAddr} (v : Nibble) (hne : b ≠ a) :
    dataRead (dataWrite s a v) b = dataRead s b := by
  by_cases hun : locate a = .unmapped
  · rw [dataWrite_of_unimplemented s ((locate_eq_unmapped_iff a).mp hun)]
  have hloc : locate b ≠ locate a := locate_ne_of_ne hne hun
  obtain ⟨i, ha, hw⟩ | ⟨ha, hw⟩ | ⟨ha, hw⟩ | ⟨ha, hw⟩ | ⟨ha, hw⟩ | ⟨ha, hw⟩ | ⟨ha, -⟩ :=
    dataWrite_cases s a v
  case inr.inr.inr.inr.inr.inr => exact absurd ha hun
  -- Only a read of the location that was written looks at the fields the write changes.
  all_goals
    rw [hw]
    rw [ha] at hloc
    unfold dataRead
    split
    any_goals rfl
  case h_1 j hb =>
    have hij : i.val ≠ j.val := fun h => hloc (hb.trans (congrArg DataLoc.ram (Fin.ext h.symm)))
    exact Vector.getElem_set_ne i.isLt j.isLt hij
  all_goals exact absurd ‹_› hloc

theorem locate_of_lt {a : DataAddr} (h : a.toNat < 16) : locate a = .ram ⟨a.toNat, h⟩ := dif_pos h

/-- A nibble of general data memory holds what was stored in it. -/
theorem dataRead_dataWrite_ram (s : State) {a : DataAddr} (h : a.toNat < 16) (v : Nibble) :
    dataRead (dataWrite s a v) a = v := by
  simp [dataRead, dataWrite, locate_of_lt h]

/-- The always-zero bits of 7EH read 0 whatever was written (10_state.md R34, D21). -/
theorem nibbleOf_bcd (v : Nibble) :
    nibbleOf false false false (v.getLsbD 0) = v &&& 0b0001 := by
  revert v
  decide

/-- The always-zero bit of 7FH reads 0 whatever was written (10_state.md R34, D21). -/
theorem nibbleOf_psw (v : Nibble) :
    nibbleOf (v.getLsbD 3) (v.getLsbD 2) (v.getLsbD 1) false = v &&& 0b1110 := by
  revert v
  decide

/-- Settles O8: what was written reads back but for the always-zero bits, and a write to one address
does not touch another. -/
theorem dataReadAfterWrite : Obligations.DataReadAfterWrite := by
  unfold Obligations.DataReadAfterWrite
  refine fun s a v => ⟨fun h => dataRead_dataWrite_ram s (Nat.lt_succ_of_le h) v, ?bcd, ?psw,
    fun b => dataRead_dataWrite_of_ne s v⟩
  case bcd =>
    rintro rfl
    exact nibbleOf_bcd v
  case psw =>
    rintro rfl
    exact nibbleOf_psw v

/-- A read looks at CMP, CY and Z for 7FH only, and never at pc, stack, mode or cycle count. -/
theorem dataRead_of_ne_psw (s : State) {a : DataAddr} (ha : a ≠ 0x7F) (pc asr : ProgAddr)
    (depth : Fin 2) (cmp cy z : Bool) (mode : Mode) (cycles : Nat) :
    dataRead { s with
      pc := pc, asr := asr, depth := depth, cmp := cmp, cy := cy, z := z, mode := mode,
      cycles := cycles } a = dataRead s a := by
  unfold dataRead
  split
  case h_6 h => exact absurd (eq_addr_of_locate h nofun) ha
  all_goals rfl

/-! ### Pins and ports (60_exceptions.md R243–R246) -/

/-- A pin that follows its latch reads the level the chip drives (R245 (b)). -/
theorem pinLevel_of_chipDrive {s : State} {p : Pin} (hfollow : s.chip.pinFollowsLatch = true) :
    (chipDrive s p = .low → pinLevel s p = false) ∧
    (chipDrive s p = .high → pinLevel s p = true) := by
  refine ⟨fun h => ?low, fun h => ?high⟩
  all_goals rw [pinLevel, if_pos hfollow, h]

/-- A pin the chip leaves alone reads what the environment drives (R245 (a)). -/
theorem undrivenLevel_of_driven {s : State} {p : Pin} :
    ((currentSample s).drive p = .low → undrivenLevel s p = false) ∧
    ((currentSample s).drive p = .high → undrivenLevel s p = true) := by
  refine ⟨fun h => ?low, fun h => ?high⟩
  all_goals rw [undrivenLevel, h]

/-- A pin that does not follow its latch reads what the environment drives (R246). -/
theorem pinLevel_of_supplied {s : State} {p : Pin} (hfollow : s.chip.pinFollowsLatch = false) :
    ((currentSample s).drive p = .low → pinLevel s p = false) ∧
    ((currentSample s).drive p = .high → pinLevel s p = true) := by
  have hlevel : pinLevel s p = suppliedLevel s p := by simp only [pinLevel, hfollow]; rfl
  refine ⟨fun h => ?low, fun h => ?high⟩
  all_goals rw [hlevel, suppliedLevel, h]

/-- Settles O10: a driven level, an undriven one and a pull-up, for the port pins and for RESET. -/
theorem pinLevelRules : Obligations.PinLevelRules := by
  unfold Obligations.PinLevelRules
  intro s
  refine ⟨fun p _ hfollow => ?follows, fun p _ hfollow => pinLevel_of_supplied hfollow,
    (undrivenLevel_of_driven (p := .reset)).1, (undrivenLevel_of_driven (p := .reset)).2,
    ?resetPullUp⟩
  case follows =>
    obtain ⟨hlow, hhigh⟩ := pinLevel_of_chipDrive (p := p) hfollow
    refine ⟨hlow, hhigh, fun hchip => ?undriven⟩
    rw [pinLevel_of_chipDrive_hiZ hfollow hchip]
    refine ⟨undrivenLevel_of_driven.1, undrivenLevel_of_driven.2, fun henv hopt => ?pullUp⟩
    have hup : hasPullUp s.chip p = true := by
      obtain ⟨rfl, h⟩ | ⟨rfl, h⟩ | ⟨rfl, h⟩ := hopt
      all_goals exact beq_iff_eq.mpr h
    exact undrivenLevel_of_hasPullUp hup henv
  case resetPullUp =>
    exact fun henv hopt => undrivenLevel_of_hasPullUp (beq_iff_eq.mpr hopt) henv

/-- A push-pull pin in output mode reads its latch bit where pins follow the latch. -/
theorem pinLevel_of_pushPull {s : State} {p : Pin} {bit : Bool}
    (hfollow : s.chip.pinFollowsLatch = true) (hdrive : chipDrive s p = pushPullDrive true bit) :
    pinLevel s p = bit := by
  obtain ⟨hlow, hhigh⟩ := pinLevel_of_chipDrive (p := p) hfollow
  cases bit with
  | false => exact hlow hdrive
  | true => exact hhigh hdrive

/-- An open-drain pin in output mode reads 0 where its latch bit is 0 and pins follow the latch. -/
theorem pinLevel_of_openDrain {s : State} {p : Pin}
    (hfollow : s.chip.pinFollowsLatch = true) (hdrive : chipDrive s p = openDrainDrive true false) :
    pinLevel s p = false :=
  (pinLevel_of_chipDrive hfollow).1 hdrive

theorem nibbleOf_getLsbD (v : Nibble) :
    nibbleOf (v.getLsbD 3) (v.getLsbD 2) (v.getLsbD 1) (v.getLsbD 0) = v := by
  revert v
  decide

theorem getLsbD_nibbleOf (b3 b2 b1 b0 : Bool) :
    (nibbleOf b3 b2 b1 b0).getLsbD 3 = b3 ∧ (nibbleOf b3 b2 b1 b0).getLsbD 2 = b2 ∧
    (nibbleOf b3 b2 b1 b0).getLsbD 1 = b1 ∧ (nibbleOf b3 b2 b1 b0).getLsbD 0 = b0 := by
  revert b3 b2 b1 b0
  decide

/-- Four push-pull pins in output mode read as their latch nibble. -/
theorem nibbleOf_pinLevel {s : State} (p3 p2 p1 p0 : Pin) {v : Nibble}
    (hfollow : s.chip.pinFollowsLatch = true)
    (h3 : chipDrive s p3 = pushPullDrive true (v.getLsbD 3))
    (h2 : chipDrive s p2 = pushPullDrive true (v.getLsbD 2))
    (h1 : chipDrive s p1 = pushPullDrive true (v.getLsbD 1))
    (h0 : chipDrive s p0 = pushPullDrive true (v.getLsbD 0)) :
    nibbleOf (pinLevel s p3) (pinLevel s p2) (pinLevel s p1) (pinLevel s p0) = v := by
  rw [pinLevel_of_pushPull hfollow h3, pinLevel_of_pushPull hfollow h2,
    pinLevel_of_pushPull hfollow h1, pinLevel_of_pushPull hfollow h0, nibbleOf_getLsbD]

/-- The drive of a port 0B pin whose written bit is 0. -/
theorem chipDrive_dataWrite_port0B (s : State) {v : Nibble} {p : Pin} {k : Nat}
    (hp : (p, k) ∈ [(Pin.p0b0, 0), (.p0b1, 1), (.p0b2, 2)]) (hv : v.getLsbD k = false) :
    chipDrive (dataWrite s 0x71 v) p = openDrainDrive true false := by
  simp only [List.mem_cons, Prod.mk.injEq, List.not_mem_nil, or_false] at hp
  have hbit : (v.extractLsb' 0 3).getLsbD k = false := by simp [hv]
  obtain ⟨rfl, rfl⟩ | ⟨rfl, rfl⟩ | ⟨rfl, rfl⟩ := hp
  all_goals exact congrArg (openDrainDrive true) hbit

/-- Settles O11: a write puts the port in output mode, and its pins read their latch bits, on the
open-drain port 0B those that are 0. -/
theorem portReadBack : Obligations.PortReadBack := by
  unfold Obligations.PortReadBack
  intro s v hfollow
  refine ⟨?port0C, ?port0D, ?bit3, fun k hk hv => ?bits⟩
  case port0C =>
    exact nibbleOf_pinLevel (s := dataWrite s 0x72 v) .p0c3 .p0c2 .p0c1 .p0c0 hfollow
      rfl rfl rfl rfl
  case port0D =>
    exact nibbleOf_pinLevel (s := dataWrite s 0x73 v) .p0d3 .p0d2 .p0d1 .p0d0 hfollow
      rfl rfl rfl rfl
  case bit3 =>
    obtain ⟨hbit3, -, -, -⟩ := getLsbD_nibbleOf false (pinLevel (dataWrite s 0x71 v) .p0b2)
      (pinLevel (dataWrite s 0x71 v) .p0b1) (pinLevel (dataWrite s 0x71 v) .p0b0)
    exact hbit3
  case bits =>
    obtain ⟨-, hbit2, hbit1, hbit0⟩ := getLsbD_nibbleOf false (pinLevel (dataWrite s 0x71 v) .p0b2)
      (pinLevel (dataWrite s 0x71 v) .p0b1) (pinLevel (dataWrite s 0x71 v) .p0b0)
    have hpin {p : Pin} (hp : (p, k) ∈ [(Pin.p0b0, 0), (.p0b1, 1), (.p0b2, 2)]) :
        pinLevel (dataWrite s 0x71 v) p = false :=
      pinLevel_of_openDrain hfollow (chipDrive_dataWrite_port0B s hp hv)
    obtain rfl | rfl | rfl : k = 0 ∨ k = 1 ∨ k = 2 := by omega
    · exact hbit0.trans (hpin (by simp))
    · exact hbit1.trans (hpin (by simp))
    · exact hbit2.trans (hpin (by simp))

end Sys2Proof.Machine
end

