-- ==== Sys2Proof/Proofs/Faults.lean ====
section
/-! What can stop an instruction (60_exceptions.md R231, R235 (c)): the two data faults, uniformly
for every instruction, then what an instruction does once neither stops it, and its remaining faults. -/

namespace Sys2Proof.Machine

/-! ### Data faults -/

/-- The data fault of an instruction with operand `m` (if any) that reads the addresses `reads` in
this order: an `m` that is not accessible, else the first address that is not readable (R66, R275,
R235 (c)). -/
def dataFault (s : State) (m : Option DataAddr) (reads : List DataAddr) : Option Fault :=
  match m.filter (fun a => !accessible s a) with
  | some a => some (.unimplementedDataAddress s.pc a)
  | none => (reads.find? (fun a => !readable s a)).map (.undefinedRead s.pc)

/-- A fault, if there is one, stops the rest. -/
def stopOr (f : Option Fault) (rest : Result) : Result :=
  match f with
  | some f => .fault f
  | none => rest

/-- Reading a list of operands in turn stops at the first that is not readable. -/
theorem foldr_reading (s : State) (reads : List DataAddr) (rest : Result) :
    reads.foldr (reading s) rest = stopOr (dataFault s none reads) rest := by
  induction reads with
  | nil => rfl
  | cons a reads ih =>
    rw [List.foldr_cons, ih]
    cases ha : readable s a with
    | true => simp [reading_of_readable ha, dataFault, ha]
    | false => simp [reading_of_not_readable ha, dataFault, ha, stopOr]

/-- The check of `m` comes before every read. -/
theorem checked_foldr_reading (s : State) (m : DataAddr) (reads : List DataAddr) (rest : Result) :
    checked s m (reads.foldr (reading s) rest) = stopOr (dataFault s (some m) reads) rest := by
  cases hm : accessible s m with
  | true => simp [checked_of_accessible hm, foldr_reading, dataFault, Option.filter, hm]
  | false => simp [checked_of_not_accessible hm, dataFault, Option.filter, hm, stopOr]

/-- What `i` answers once its operands can be read; it still holds the faults of BR, CALL, RET,
RETSK, STOP and HALT, which read no data memory. -/
def afterOperands (i : Instr) (s : State) : Result :=
  match i with
  | .addRM r m => arith .add s (regAddr r) (reg s r) (dataRead s m) false
  | .addMI m n4 => arith .add s m (dataRead s m) n4 false
  | .addcRM r m => arith .add s (regAddr r) (reg s r) (dataRead s m) s.cy
  | .addcMI m n4 => arith .add s m (dataRead s m) n4 s.cy
  | .subRM r m => arith .sub s (regAddr r) (reg s r) (dataRead s m) false
  | .subMI m n4 => arith .sub s m (dataRead s m) n4 false
  | .subcRM r m => arith .sub s (regAddr r) (reg s r) (dataRead s m) s.cy
  | .subcMI m n4 => arith .sub s m (dataRead s m) n4 s.cy
  | .orRM r m => storeResult s (regAddr r) (reg s r ||| dataRead s m)
  | .orMI m n4 => storeResult s m (dataRead s m ||| n4)
  | .andRM r m => storeResult s (regAddr r) (reg s r &&& dataRead s m)
  | .andMI m n4 => storeResult s m (dataRead s m &&& n4)
  | .xorRM r m => storeResult s (regAddr r) (reg s r ^^^ dataRead s m)
  | .xorMI m n4 => storeResult s m (dataRead s m ^^^ n4)
  | .skt m n => .next (skipIf { s with cmp := false } (testOperand s m &&& n == n))
  | .skf m n => .next (skipIf { s with cmp := false } (testOperand s m &&& n == 0))
  | .ske m n4 => .next (skipIf s (dataRead s m == n4))
  | .skne m n4 => .next (skipIf s (dataRead s m != n4))
  | .skge m n4 => .next (skipIf s (decide (n4.toNat ≤ (dataRead s m).toNat)))
  | .sklt m n4 => .next (skipIf s (decide ((dataRead s m).toNat < n4.toNat)))
  | .rorc r => storeResult { s with cy := (reg s r).getLsbD 0 } (regAddr r)
      (rotatedRight (reg s r) s.cy)
  | .ld r m => storeResult s (regAddr r) (dataRead s m)
  | .st m r => storeResult s m (reg s r)
  | .mov m n4 => storeResult s m n4
  | .br addr => execBr addr s
  | .call addr => execCall addr s
  | .ret => execRet s
  | .retsk => execRetsk s
  | .stop cond => execStop cond s
  | .halt cond => execHalt cond s
  | .nop => .next (advancePc s)

/-- Every instruction: its data fault if there is one, else what it does with its operands. -/
theorem exec_eq (i : Instr) (s : State) :
    exec i s = stopOr (dataFault s (memOperand i) (operandReads i)) (afterOperands i s) := by
  cases i with
  | addRM r m | addcRM r m | subRM r m | subcRM r m | orRM r m | andRM r m | xorRM r m =>
    simp only [afterOperands, ← regRead_eq_reg]
    exact checked_foldr_reading s m [regAddr r, m] _
  | addMI m n | addcMI m n | subMI m n | subcMI m n | orMI m n | andMI m n | xorMI m n
  | skt m n | skf m n | ske m n | skne m n | skge m n | sklt m n =>
    exact checked_foldr_reading s m [m] _
  | ld r m => exact checked_foldr_reading s m [m] _
  | st m r =>
    simp only [afterOperands, ← regRead_eq_reg]
    exact checked_foldr_reading s m [regAddr r] _
  | mov m n => exact checked_foldr_reading s m [] _
  | rorc r =>
    simp only [afterOperands, ← regRead_eq_reg]
    exact foldr_reading s [regAddr r] _
  | br addr | call addr | ret | retsk | stop cond | halt cond | nop => rfl

theorem dataFault_eq_none_iff (i : Instr) (s : State) :
    dataFault s (memOperand i) (operandReads i) = none ↔ operandsReady i s = true := by
  cases hm : memOperand i with
  | none => simp [dataFault, operandsReady, hm]
  | some m => cases ha : accessible s m <;> simp [dataFault, operandsReady, hm, ha, Option.filter]

/-- The data faults, in their order: `m` accessible comes before every read. -/
theorem dataFault_cases {i : Instr} {s : State} {f : Fault}
    (h : dataFault s (memOperand i) (operandReads i) = some f) :
    (∃ m, memOperand i = some m ∧ accessible s m = false ∧
      f = .unimplementedDataAddress s.pc m) ∨
    ((∀ m, memOperand i = some m → accessible s m = true) ∧
      ∃ a ∈ operandReads i, readable s a = false ∧ f = .undefinedRead s.pc a) := by
  unfold dataFault at h
  split at h
  · rename_i m hm
    obtain ⟨hmem, hacc⟩ := Option.filter_eq_some_iff.mp hm
    cases h
    exact .inl ⟨m, hmem, by simpa using hacc, rfl⟩
  · rename_i hm
    obtain ⟨a, ha, rfl⟩ := Option.map_eq_some_iff.mp h
    refine .inr ⟨fun m hmem => ?_, a, List.mem_of_find?_eq_some ha,
      by simpa using List.find?_some ha, rfl⟩
    simpa using Option.filter_eq_none_iff.mp hm m hmem

theorem exec_of_ready {i : Instr} {s : State} (h : operandsReady i s = true) :
    exec i s = afterOperands i s := by
  rw [exec_eq, (dataFault_eq_none_iff i s).mpr h, stopOr]

/-- An instruction that answers a next state had its operands ready. -/
theorem afterOperands_of_exec_next {i : Instr} {s t : State} (h : exec i s = .next t) :
    afterOperands i s = .next t := by
  rw [exec_eq] at h
  cases hf : dataFault s (memOperand i) (operandReads i) with
  | none => rwa [hf] at h
  | some f => rw [hf] at h; cases h

theorem exec_of_not_accessible {i : Instr} {s : State} {m : DataAddr} (hm : memOperand i = some m)
    (hacc : accessible s m = false) : exec i s = .fault (.unimplementedDataAddress s.pc m) := by
  simp [exec_eq, dataFault, hm, hacc, Option.filter, stopOr]

theorem exec_of_not_readable {i : Instr} {s : State} {a : DataAddr}
    (hacc : ∀ m, memOperand i = some m → accessible s m = true)
    (ha : (operandReads i).find? (fun x => !readable s x) = some a) :
    exec i s = .fault (.undefinedRead s.pc a) := by
  have hfilter : (memOperand i).filter (fun m => !accessible s m) = none :=
    Option.filter_eq_none_iff.mpr fun m hm => by simp [hacc m hm]
  rw [exec_eq, dataFault, hfilter]
  simp only [ha, Option.map_some, stopOr]

/-- An instruction with an `m` operand has no fault but the data faults. -/
theorem afterOperands_next_of_memOperand {i : Instr} {s : State} {m : DataAddr}
    (hm : memOperand i = some m) : ∃ t, afterOperands i s = .next t := by
  cases i with
  | rorc r | br addr | call addr | ret | retsk | stop cond | halt cond | nop => cases hm
  | _ => exact ⟨_, rfl⟩

/-- Settles O12: the check of `m` comes first and is the only thing that looks at the policy. -/
theorem unmappedAddressPolicy : Obligations.UnmappedAddressPolicy := by
  unfold Obligations.UnmappedAddressPolicy
  refine fun i m s hm hun => ⟨fun hfault => ?fault, fun _ => ⟨fun hready => ?runs, fun v => ?write⟩⟩
  case fault =>
    exact exec_of_not_accessible hm ((accessible_eq_false_iff s m).mpr ⟨hfault, hun⟩)
  case runs =>
    rw [exec_of_ready hready]
    exact afterOperands_next_of_memOperand hm
  case write => exact dataWrite_of_unimplemented s hun v

theorem readable_eq_false_iff (s : State) (a : DataAddr) :
    readable s a = false ↔ s.chip.ramReset = .faultOnRead ∧
      ∃ k : Fin 16, a = BitVec.ofNat 7 k ∧ s.defined[k] = false := by
  constructor
  · intro h
    unfold readable at h
    split at h
    case h_1 k hk =>
      rw [Bool.or_eq_false_iff] at h
      obtain ⟨hpolicy, hdef⟩ := h
      refine ⟨?_, k, eq_addr_of_locate hk nofun, hdef⟩
      cases hp : s.chip.ramReset with
      | any => simp [hp] at hpolicy
      | faultOnRead => rfl
    all_goals cases h
  · rintro ⟨hpolicy, k, rfl, hdef⟩
    simp only [readable, locate_ofNat, hpolicy, hdef]
    rfl

theorem readable_of_policy_any {s : State} (h : s.chip.ramReset = .any) (a : DataAddr) :
    readable s a = true := by
  rw [← Bool.not_eq_false, readable_eq_false_iff, h]
  exact nofun

/-- Settles O60: `readable` looks at the defined-bit of a nibble, and the first operand that is not
readable stops the instruction. -/
theorem undefinedReadPolicy : Obligations.UndefinedReadPolicy := by
  unfold Obligations.UndefinedReadPolicy
  refine fun s => ⟨readable_eq_false_iff s, fun i a => exec_of_not_readable,
    fun i hany hacc => ?ready⟩
  case ready =>
    have hmem : (memOperand i).all (accessible s) = true := by
      cases hm : memOperand i with
      | none => rfl
      | some m => exact hacc m hm
    rw [operandsReady, hmem, Bool.true_and, List.all_eq_true]
    exact fun a _ => readable_of_policy_any hany a

/-! ### Every fault of a step -/

/-- The condition under which a step may answer each fault; the fault records the pc (R231). -/
def FaultListed (s : State) : Fault → Prop
  | .illegalInstruction p w =>
    p = s.pc ∧ programWord s.rom s.pc = some w ∧ ∀ i, decode w ≠ .ok i
  | .badBranchOperand p w => p = s.pc ∧ programWord s.rom s.pc = some w ∧
    ∃ addr : BitVec 11, 512 ≤ addr.toNat ∧ (Runs s (.br addr) ∨ Runs s (.call addr))
  | .badStandbyOperand p w => p = s.pc ∧ programWord s.rom s.pc = some w ∧
    ∃ c : Nibble, 2 ≤ c.toNat ∧ (Runs s (.halt c) ∨ Runs s (.stop c))
  | .unimplementedDataAddress p a => p = s.pc ∧ accessible s a = false ∧
    ∃ i, Runs s i ∧ memOperand i = some a
  | .undefinedRead p a => p = s.pc ∧ readable s a = false ∧
    ∃ i, Runs s i ∧ a ∈ operandReads i ∧ ∀ m, memOperand i = some m → accessible s m = true
  | .stackOverflow p => p = s.pc ∧ s.depth = 1 ∧ ∃ addr, Runs s (.call addr)
  | .stackUnderflow p => p = s.pc ∧ s.depth = 0 ∧ (Runs s .ret ∨ Runs s .retsk)
  | .romNotProgrammed p => p = s.pc ∧ programWord s.rom s.pc = none

theorem FaultListed.pc_eq {s : State} {f : Fault} (h : FaultListed s f) : f.pc = s.pc := by
  cases f
  all_goals
    obtain ⟨hpc, -⟩ := h
    exact hpc

/-- A branch operand is well formed if it is one of the 512 program addresses (R108). -/
theorem branchOperandOk_iff (addr : BitVec 11) :
    branchOperandOk addr = true ↔ addr.toNat < 512 := by
  have haddr : addr.toNat < 2 ^ 11 := addr.isLt
  have hzero : (0 : BitVec 2).toNat = 0 := rfl
  rw [branchOperandOk, beq_iff_eq, ← BitVec.toNat_inj, BitVec.extractLsb'_toNat,
    Nat.shiftRight_eq_div_pow, hzero]
  omega

theorem not_branchOperandOk_iff (addr : BitVec 11) :
    ¬ branchOperandOk addr = true ↔ 512 ≤ addr.toNat := by
  rw [branchOperandOk_iff, Nat.not_lt]

/-- A standby operand is well formed if it is 0 or 1 (R109). -/
theorem not_standbyOperandOk_iff (cond : Nibble) :
    ¬ standbyOperandOk cond = true ↔ 2 ≤ cond.toNat := by
  revert cond
  decide

/-- The word a step fetches for `i` is the word of `i`. -/
theorem programWord_of_runs {s : State} {i : Instr} (h : Runs s i) :
    programWord s.rom s.pc = some (encode i) := by
  obtain ⟨-, -, hfetch⟩ := h
  unfold fetchInstr at hfetch
  split at hfetch
  · cases hfetch
  · rename_i w hw
    split at hfetch
    · rename_i j hj
      cases hfetch
      rw [hw, encodeDecodeRoundTrip w i hj]
    · cases hfetch

/-- The faults of BR, CALL, RET, RETSK, STOP and HALT, which look at operand and stack only. -/
theorem faultListed_of_afterOperands {i : Instr} {s : State} {f : Fault} (hruns : Runs s i)
    (h : afterOperands i s = .fault f) : FaultListed s f := by
  have hw := programWord_of_runs hruns
  cases i with
  | br addr =>
    simp only [afterOperands, execBr] at h
    split at h
    · cases h
    · rename_i hbad
      cases h
      exact ⟨rfl, hw, addr, (not_branchOperandOk_iff addr).mp hbad, .inl hruns⟩
  | call addr =>
    simp only [afterOperands, execCall] at h
    split at h
    · split at h
      · cases h
        exact ⟨rfl, ‹_›, addr, hruns⟩
      · cases h
    · rename_i hbad
      cases h
      exact ⟨rfl, hw, addr, (not_branchOperandOk_iff addr).mp hbad, .inr hruns⟩
  | ret =>
    simp only [afterOperands, execRet] at h
    split at h
    · cases h
      exact ⟨rfl, ‹_›, .inl hruns⟩
    · cases h
  | retsk =>
    simp only [afterOperands, execRetsk] at h
    split at h
    · cases h
      exact ⟨rfl, ‹_›, .inr hruns⟩
    · cases h
  | stop cond =>
    simp only [afterOperands, execStop] at h
    split at h
    · cases h
    · rename_i hbad
      cases h
      exact ⟨rfl, hw, cond, (not_standbyOperandOk_iff cond).mp hbad, .inr hruns⟩
  | halt cond =>
    simp only [afterOperands, execHalt] at h
    split at h
    · cases h
    · rename_i hbad
      cases h
      exact ⟨rfl, hw, cond, (not_standbyOperandOk_iff cond).mp hbad, .inl hruns⟩
  | _ => cases h

theorem faultListed_of_exec {i : Instr} {s : State} {f : Fault} (hruns : Runs s i)
    (h : exec i s = .fault f) : FaultListed s f := by
  rw [exec_eq] at h
  cases hdata : dataFault s (memOperand i) (operandReads i) with
  | none =>
    rw [hdata] at h
    exact faultListed_of_afterOperands hruns h
  | some g =>
    rw [hdata] at h
    cases h
    obtain ⟨m, hm, hacc, rfl⟩ | ⟨hacc, a, ha, hread, rfl⟩ := dataFault_cases hdata
    · exact ⟨rfl, hacc, i, hruns, hm⟩
    · exact ⟨rfl, hread, i, hruns, ha, hacc⟩

theorem faultListed_of_fetch {s : State} {f : Fault} (h : fetchInstr s = .error f) :
    FaultListed s f := by
  unfold fetchInstr at h
  split at h
  · cases h
    exact ⟨rfl, ‹_›⟩
  · rename_i w hw
    split at h
    · cases h
    · rename_i e he
      cases h
      exact ⟨rfl, hw, fun i hi => by rw [he] at hi; cases hi⟩

/-- A step that faults was fetching or executing an instruction (70_reset_and_hazards.md R290). -/
theorem step_fault {s : State} {f : Fault} (h : step s = .fault f) :
    resetLevel s = true ∧ s.mode = .operating ∧ FaultListed s f := by
  unfold step at h
  split at h
  · rename_i hreset
    split at h
    · cases h
    · cases h
    · cases h
    · rename_i hmode
      refine ⟨hreset, hmode, ?_⟩
      split at h
      · rename_i i hfetch
        refine faultListed_of_exec ⟨hreset, hmode, hfetch⟩ ?_
        cases he : exec i s with
        | next t => rw [he] at h; cases h
        | fault g => rw [he] at h; cases h; rfl
        | refused g => rw [he] at h; cases h
      · cases h
        exact faultListed_of_fetch ‹_›
  · cases h

/-- Settles O59: where a step faults, the fault is one of the fetch, of the operands, or of the
instruction's own, and each is listed. -/
theorem faultsOnlyAsListed : Obligations.FaultsOnlyAsListed := by
  unfold Obligations.FaultsOnlyAsListed
  intro s f h
  obtain ⟨hreset, hmode, hlisted⟩ := step_fault h
  refine ⟨hreset, hmode, hlisted.pc_eq, ?illegal, ?branch, ?standby, ?unimplemented, ?undefined,
    ?overflow, ?underflow, ?rom⟩
  case illegal | branch | standby =>
    rintro p w rfl
    obtain ⟨-, hcond⟩ := hlisted
    exact hcond
  case overflow | underflow | rom =>
    rintro p rfl
    obtain ⟨-, hcond⟩ := hlisted
    exact hcond
  case unimplemented =>
    rintro p a rfl
    obtain ⟨-, hacc, hinstr⟩ := hlisted
    obtain ⟨hpolicy, hun⟩ := (accessible_eq_false_iff s a).mp hacc
    exact ⟨hpolicy, hun, hinstr⟩
  case undefined =>
    rintro p a rfl
    obtain ⟨-, hread, hinstr⟩ := hlisted
    obtain ⟨hpolicy, hnibble⟩ := (readable_eq_false_iff s a).mp hread
    exact ⟨hpolicy, hnibble, hinstr⟩

end Sys2Proof.Machine
end

