-- ==== Sys2Proof/Proofs/BitTest.lean ====
section
/-! The effect of SKT and SKF (42_test_compare.md R161, R162, R168): the operand under both orders,
the mask conditions bit by bit, then the two statements. -/

namespace Sys2Proof.Machine

/-- Only at 7FH does it matter whether the operand is read before or after the reset of CMP (R168,
D8). -/
theorem testOperand_eq (s : State) (m : DataAddr) :
    testOperand s m = if s.chip.sktCmpOrder = .resetFirst ∧ m = 0x7F then dataRead s m &&& 0b0111
      else dataRead s m := by
  cases horder : s.chip.sktCmpOrder with
  | readFirst => simp only [testOperand, horder, reduceCtorEq, false_and, if_false]
  | resetFirst =>
    have hread : testOperand s m = dataRead { s with cmp := false } m := by
      simp only [testOperand, horder]
    rw [hread]
    by_cases hm : m = 0x7F
    · subst hm
      have hmask : ∀ c y z, nibbleOf false y z false = nibbleOf c y z false &&& 0b0111 := by decide
      exact hmask s.cmp s.cy s.z
    · rw [if_neg (fun h => hm h.2)]
      exact dataRead_of_ne_psw s hm s.pc s.asr s.depth false s.cy s.z s.mode s.cycles

theorem and_eq_mask_iff (v n : Nibble) :
    v &&& n = n ↔ ∀ k < 4, n.getLsbD k = true → v.getLsbD k = true := by
  constructor
  · intro h k _ hn
    rw [← h, BitVec.getLsbD_and, Bool.and_eq_true] at hn
    exact hn.1
  · intro h
    refine BitVec.eq_of_getLsbD_eq fun k hk => ?_
    rw [BitVec.getLsbD_and]
    cases hn : n.getLsbD k with
    | false => rw [Bool.and_false]
    | true => rw [h k hk hn, Bool.and_true]

theorem and_eq_zero_iff (v n : Nibble) :
    v &&& n = 0 ↔ ∀ k < 4, n.getLsbD k = true → v.getLsbD k = false := by
  constructor
  · intro h k _ hn
    have hbit : (v &&& n).getLsbD k = false := by rw [h]; exact BitVec.getLsbD_zero
    rwa [BitVec.getLsbD_and, hn, Bool.and_true] at hbit
  · intro h
    refine BitVec.eq_of_getLsbD_eq fun k hk => ?_
    rw [BitVec.getLsbD_and, BitVec.ofNat_eq_ofNat, BitVec.getLsbD_zero]
    cases hn : n.getLsbD k with
    | false => rw [Bool.and_false]
    | true => rw [h k hk hn, Bool.false_and]

/-- Settles O24: the word's fields, the mask condition on the operand, the skip. -/
theorem sktEffect : Obligations.SktEffect := by
  unfold Obligations.SktEffect
  intro m n s v
  have hv : testOperand s m = v := testOperand_eq s m
  refine ⟨encodeM_eq_ofNat 0b11110#5 m n, fun hready hall => ?taken, fun hready hex => ?notTaken⟩
  all_goals rw [exec_of_ready hready, afterOperands, hv]
  case taken =>
    rw [(and_eq_mask_iff v n).mpr hall, beq_self_eq_true, skipIf_taken]
  case notTaken =>
    have hne : v &&& n ≠ n := by
      rw [Ne, and_eq_mask_iff]
      obtain ⟨k, hk, hn, hbit⟩ := hex
      exact fun hall => Bool.false_ne_true (hbit.symm.trans (hall k hk hn))
    rw [beq_eq_false_iff_ne.mpr hne, skipIf_not_taken]

/-- Settles O25: the word's fields, the mask condition on the operand, the skip. -/
theorem skfEffect : Obligations.SkfEffect := by
  unfold Obligations.SkfEffect
  intro m n s v
  have hv : testOperand s m = v := testOperand_eq s m
  refine ⟨encodeM_eq_ofNat 0b11111#5 m n, fun hready hall => ?taken, fun hready hex => ?notTaken⟩
  all_goals rw [exec_of_ready hready, afterOperands, hv]
  case taken =>
    rw [(and_eq_zero_iff v n).mpr hall, beq_self_eq_true, skipIf_taken]
  case notTaken =>
    have hne : v &&& n ≠ 0 := by
      rw [Ne, and_eq_zero_iff]
      obtain ⟨k, hk, hn, hbit⟩ := hex
      exact fun hall => Bool.false_ne_true ((hall k hk hn).symm.trans hbit)
    rw [beq_eq_false_iff_ne.mpr hne, skipIf_not_taken]

end Sys2Proof.Machine
end

