-- ==== Sys2Proof/Proofs/Transfer.lean ====
section
/-! The effect of LD, ST, MOV (43_rotation_transfer.md R182–R184), and RORC five times over
(R180). -/

namespace Sys2Proof.Machine

/-! ### Transfers -/

/-- Settles O30: the word's fields, the store to the register. -/
theorem ldEffect : Obligations.LdEffect := by
  unfold Obligations.LdEffect
  refine fun r m s => ⟨encodeM_eq_ofNat 0b01000#5 m r, fun hready => ?_⟩
  rw [exec_of_ready hready, afterOperands, storeResult_regAddr]

/-- Settles O31: the word's fields, the store to `m`. -/
theorem stEffect : Obligations.StEffect := by
  unfold Obligations.StEffect
  refine fun m r s => ⟨encodeM_eq_ofNat 0b11000#5 m r, fun hready => ?_⟩
  rw [exec_of_ready hready, afterOperands, storeResult_eq_next]

/-- Settles O32: the word's fields, the store to `m`. -/
theorem movEffect : Obligations.MovEffect := by
  unfold Obligations.MovEffect
  refine fun m n4 s => ⟨encodeM_eq_ofNat 0b11101#5 m n4, fun hready => ?_⟩
  rw [exec_of_ready hready, afterOperands, storeResult_eq_next]

/-! ### Five rotations -/

/-- One rotation of the five bits: a register and CY (R180). -/
def rotated (p : Nibble × Bool) : Nibble × Bool := (rotatedRight p.1 p.2, p.1.getLsbD 0)

/-- `s` with the five bits `p` in register `r` and CY, `k` words further on. -/
def withRotated (s : State) (r : RegNum) (p : Nibble × Bool) (k : Nat) : State :=
  { setReg s r p.1 with cy := p.2, pc := s.pc + BitVec.ofNat 9 k, cycles := s.cycles + k }

/-- Rotating five bits five times gives them back. -/
theorem rotated_five (p : Nibble × Bool) :
    rotated (rotated (rotated (rotated (rotated p)))) = p := by
  have h : ∀ (v : Nibble) (c : Bool),
    rotated (rotated (rotated (rotated (rotated (v, c))))) = (v, c) := by decide
  exact h p.1 p.2

theorem exec_rorc_first {s : State} {r : RegNum} (h : readable s (regAddr r) = true) :
    exec (.rorc r) s = .next (withRotated s r (rotated (reg s r, s.cy)) 1) :=
  exec_rorc_of_readable h

/-- After a first rotation the register is defined, so the next one runs. -/
theorem exec_rorc_withRotated (s : State) (r : RegNum) (p : Nibble × Bool) (k : Nat) :
    exec (.rorc r) (withRotated s r p k) = .next (withRotated s r (rotated p) (k + 1)) := by
  have hreadable : readable (withRotated s r p k) (regAddr r) = true := readable_setReg s r p.1
  have hreg : reg (withRotated s r p k) r = p.1 := reg_setReg s r p.1
  have hpc : s.pc + BitVec.ofNat 9 k + 1 = s.pc + BitVec.ofNat 9 (k + 1) := by
    rw [BitVec.ofNat_add, BitVec.add_assoc]
    rfl
  rw [exec_rorc_of_readable hreadable, hreg]
  simp only [withRotated, rotated, setReg, Vector.set_set, hpc, Nat.add_assoc]

/-- Settles O29: the five bits come back, whatever they were. -/
theorem fiveRotationsRestore : Obligations.FiveRotationsRestore := by
  unfold Obligations.FiveRotationsRestore
  intro r s hready
  have hr : readable s (regAddr r) = true :=
    readable_of_operandsReady hready (List.mem_singleton_self _)
  refine ⟨_, _, _, _, _, exec_rorc_first hr, exec_rorc_withRotated .., exec_rorc_withRotated ..,
    exec_rorc_withRotated .., exec_rorc_withRotated .., ?_⟩
  rw [rotated_five]
  rfl

end Sys2Proof.Machine
end

