-- ==== Sys2Proof/Proofs/Control.lean ====
section
/-! The effect of BR, CALL, RET, RETSK (44_branch_subroutine.md R191–R197) and of HALT and STOP
(45_others.md R201, R202): the words, the operand checks, then the five statements. -/

namespace Sys2Proof

/-! ### Words -/

/-- The word of an instruction of format `A`, as the fields' weights give it (30_encoding.md R101,
R102). -/
theorem encodeA_eq_ofNat (op : BitVec 5) (addr : BitVec 11) :
    encodeA op addr = BitVec.ofNat 16 (op.toNat * 2048 + addr.toNat) := by
  have haddr : addr.toNat < 2 ^ 11 := addr.isLt
  have hop : op.toNat < 2 ^ 5 := op.isLt
  apply BitVec.eq_of_toNat_eq
  change (op ++ addr).toNat = _
  rw [BitVec.toNat_append, ← Nat.shiftLeft_add_eq_or_of_lt haddr, BitVec.toNat_ofNat,
    Nat.shiftLeft_eq]
  omega

/-- The word of an instruction of format `X`, as the fields' weights give it (R101, R104). -/
theorem encodeX_eq_ofNat (fHi : BitVec 3) (fMid lo : Nibble) :
    encodeX fHi fMid lo = BitVec.ofNat 16 (0x3800 + (fHi ++ fMid).toNat * 16 + lo.toNat) := by
  rw [encodeX_eq_encodeM, encodeM_eq_ofNat]
  rfl

theorem encode_br (addr : BitVec 11) :
    encode (.br addr) = BitVec.ofNat 16 (0x6000 + addr.toNat) := encodeA_eq_ofNat 0b01100#5 addr
theorem encode_call (addr : BitVec 11) :
    encode (.call addr) = BitVec.ofNat 16 (0xE000 + addr.toNat) := encodeA_eq_ofNat 0b11100#5 addr
theorem encode_stop (cond : Nibble) :
    encode (.stop cond) = BitVec.ofNat 16 (0x3AF0 + cond.toNat) := encodeX_eq_ofNat 2 15 cond
theorem encode_halt (cond : Nibble) :
    encode (.halt cond) = BitVec.ofNat 16 (0x3BF0 + cond.toNat) := encodeX_eq_ofNat 3 15 cond

end Sys2Proof

namespace Sys2Proof.Machine

/-! ### Branches and subroutines -/

theorem branchTarget_eq_ofNat (addr : BitVec 11) :
    branchTarget addr = BitVec.ofNat 9 addr.toNat := rfl

theorem exec_br_of_ok {addr : BitVec 11} (h : branchOperandOk addr = true) (s : State) :
    exec (.br addr) s = .next (jumpTo s (branchTarget addr)) := if_pos h

/-- Settles O33: the operand check decides between the jump and the fault. -/
theorem brEffect : Obligations.BrEffect := by
  unfold Obligations.BrEffect
  refine fun addr s => ⟨encode_br addr, fun hok => ?jump, fun hbad => ?fault⟩
  case jump =>
    rw [exec_br_of_ok ((branchOperandOk_iff addr).mpr hok), branchTarget_eq_ofNat, jumpTo]
  case fault =>
    rw [← encode_br]
    exact if_neg ((not_branchOperandOk_iff addr).mpr hbad)

/-- Settles O34: the operand check comes before the look at the stack. -/
theorem callEffect : Obligations.CallEffect := by
  unfold Obligations.CallEffect
  refine fun addr s => ⟨encode_call addr, fun hok hdepth => ?jump, fun hok hdepth => ?overflow,
    fun hbad => ?fault⟩
  case jump =>
    have hfree : s.depth ≠ 1 := by rw [hdepth]; decide
    have hasr : s.pc + 1 = BitVec.ofNat 9 (s.pc.toNat + 1) := by
      rw [BitVec.ofNat_add, BitVec.ofNat_toNat, BitVec.setWidth_eq]
      rfl
    rw [exec, execCall, if_pos ((branchOperandOk_iff addr).mpr hok), if_neg hfree,
      branchTarget_eq_ofNat, hasr, jumpTo]
  case overflow =>
    rw [exec, execCall, if_pos ((branchOperandOk_iff addr).mpr hok), if_pos hdepth]
  case fault =>
    rw [← encode_call]
    exact if_neg ((not_branchOperandOk_iff addr).mpr hbad)

/-- Settles O35: the depth decides between the return and the fault. -/
theorem returnEffect : Obligations.ReturnEffect := by
  unfold Obligations.ReturnEffect
  refine fun s => ⟨rfl, rfl, fun hheld => ⟨exec_ret_of_held hheld, ?retsk⟩,
    fun hempty => ⟨if_pos hempty, if_pos hempty⟩⟩
  case retsk => exact exec_retsk_of_held hheld

/-! ### Standby instructions -/

theorem exec_halt_zero (s : State) :
    exec (.halt 0) s = .next { advancePc s with mode := .halt false } := rfl
theorem exec_halt_one (s : State) : exec (.halt 1) s =
    .next { advancePc s with mode := enterUnlessHigh s .p0b0 (.halt true) } := rfl
theorem exec_stop_zero (s : State) :
    exec (.stop 0) s = .next { initialise (advancePc s) with mode := .stop false } := rfl
theorem exec_stop_one (s : State) : exec (.stop 1) s =
    .next { advancePc s with mode := enterUnlessHigh s .p0b1 (.stop true) } := rfl

theorem enterUnlessHigh_of_low {s : State} {p : Pin} (h : pinLevel s p = false) (m : Mode) :
    enterUnlessHigh s p m = m := by
  rw [enterUnlessHigh, h, if_neg Bool.false_ne_true]

theorem enterUnlessHigh_of_high {s : State} {p : Pin} (h : pinLevel s p = true) (m : Mode) :
    enterUnlessHigh s p m = s.mode := if_pos h

/-- Settles O38: the two operands that pass the check, the second under both levels of P0B0. -/
theorem haltEffect : Obligations.HaltEffect := by
  unfold Obligations.HaltEffect
  refine fun h s => ⟨encode_halt h, ?zero, ?oneLow, ?oneHigh, fun hbad => ?fault⟩
  case zero =>
    rintro rfl
    exact exec_halt_zero s
  case oneLow =>
    rintro rfl hpin
    rw [exec_halt_one, enterUnlessHigh_of_low hpin, advancePc]
  case oneHigh =>
    rintro rfl hpin
    rw [exec_halt_one, enterUnlessHigh_of_high hpin, advancePc]
  case fault =>
    rw [← encode_halt]
    exact if_neg ((not_standbyOperandOk_iff h).mpr hbad)

/-- Settles O39: the two operands that pass the check, the second under both levels of P0B1. -/
theorem stopEffect : Obligations.StopEffect := by
  unfold Obligations.StopEffect
  refine fun c s => ⟨encode_stop c, ?zero, ?oneLow, ?oneHigh, fun hbad => ?fault⟩
  case zero =>
    rintro rfl
    exact exec_stop_zero s
  case oneLow =>
    rintro rfl hpin
    rw [exec_stop_one, enterUnlessHigh_of_low hpin, advancePc]
  case oneHigh =>
    rintro rfl hpin
    rw [exec_stop_one, enterUnlessHigh_of_high hpin, advancePc]
  case fault =>
    rw [← encode_stop]
    exact if_neg ((not_standbyOperandOk_iff c).mpr hbad)

end Sys2Proof.Machine
end

