-- ==== Sys2Proof/Proofs/Decimal.lean ====
section
/-! Arithmetic in decimal, in compare mode and on the PSWORD (40_arithmetic.md R131–R133,
R142–R144), from the effect of the eight forms. -/

namespace Sys2Proof.Machine

/-! ### Table 5-2 in and out of the decimal range -/

/-- The rows 0 to 19 of the addition are decimal. -/
theorem sumOutcome_decimal {t : Nat} (h : t < 20) :
    sumOutcome true t = (decide (10 ≤ t), BitVec.ofNat 4 (t % 10)) := by
  revert t
  decide

/-- The rows 20 to 31 of the addition have CY and a result of at least 10. -/
theorem sumOutcome_out_of_range {t : Nat} (hlow : 20 ≤ t) (hhigh : t < 32) :
    ∃ v : Nibble, 10 ≤ v.toNat ∧ sumOutcome true t = (true, v) := by
  have hrows : ∀ k < 12, 10 ≤ (sumOutcome true (k + 20)).2.toNat ∧
    (sumOutcome true (k + 20)).1 = true := by decide
  obtain ⟨hv, hcy⟩ := hrows (t - 20) (by omega)
  rw [Nat.sub_add_cancel hlow] at hv hcy
  exact ⟨_, hv, Prod.ext hcy rfl⟩

/-- The rows of the subtraction for differences from −10 to 9 are decimal. -/
theorem differenceOutcome_decimal {a b c : Nat} (ha : a < 10) (hb : b + c < 11) :
    differenceOutcome true a b c =
      (decide (a < b + c), BitVec.ofNat 4 ((a + 10 - (b + c)) % 10)) := by
  have hrows : ∀ a < 10, ∀ n < 11, bcdSubTable.getD ((a + 32 - n) % 32) (true, 0) =
    (decide (a < n), BitVec.ofNat 4 ((a + 10 - n) % 10)) := by decide
  exact hrows a ha (b + c) hb

/-- The rows of the subtraction for differences above 9 or below −10 have CY and a result of at
least 10. -/
theorem differenceOutcome_out_of_range {a b c : Nat} (ha : a < 16) (hb : b + c < 17)
    (h : b + c + 10 ≤ a ∨ a + 10 < b + c) :
    ∃ v : Nibble, 10 ≤ v.toNat ∧ differenceOutcome true a b c = (true, v) := by
  have hrows : ∀ k < 12, 10 ≤ (bcdSubTable.getD (k + 10) (true, 0)).2.toNat ∧
    (bcdSubTable.getD (k + 10) (true, 0)).1 = true := by decide
  obtain ⟨k, hk, hrow⟩ : ∃ k < 12, (a + 32 - (b + c)) % 32 = k + 10 :=
    ⟨(a + 32 - (b + c)) % 32 - 10, by omega, by omega⟩
  obtain ⟨hv, hcy⟩ := hrows k hk
  refine ⟨_, hv, ?_⟩
  rw [differenceOutcome, if_pos rfl, hrow]
  exact Prod.ext hcy rfl

/-! ### The eight forms -/

/-- With CMP = 0 a register form stores its result in the register. -/
theorem arithOutcome_regAddr {s : State} (hcmp : s.cmp = false) (r : RegNum) (o : Bool × Nibble) :
    reg (arithOutcome s (regAddr r) o) r = o.2 ∧ (arithOutcome s (regAddr r) o).cy = o.1 := by
  rw [arithOutcome, if_neg (by simp [hcmp]), dataWrite_regAddr]
  exact ⟨reg_setReg _ r o.2, rfl⟩

theorem ofNat_digit_toNat (n : Nat) : (BitVec.ofNat 4 (n % 10)).toNat = n % 10 := by
  rw [BitVec.toNat_ofNat]
  omega

/-- Settles O17: both operations stay in the decimal rows of Table 5-2. -/
theorem decimalDigits : Obligations.DecimalDigits := by
  unfold Obligations.DecimalDigits
  intro r m s hready hbcd hcmp ha hb
  have hc : s.cy.toNat ≤ 1 := s.cy.toNat_le
  obtain ⟨haddc, -⟩ := addcEffect
  obtain ⟨hsubc, -⟩ := subcEffect
  obtain ⟨-, hsum⟩ := haddc r m s
  obtain ⟨-, hdifference⟩ := hsubc r m s
  refine ⟨⟨_, hsum hready, ?_⟩, ⟨_, hdifference hready, ?_⟩⟩
  all_goals rw [hbcd, (arithOutcome_regAddr hcmp r _).1, (arithOutcome_regAddr hcmp r _).2]
  · rw [sumOutcome_decimal (by omega)]
    exact ⟨ofNat_digit_toNat _, rfl⟩
  · rw [differenceOutcome_decimal (by omega) (by omega)]
    exact ⟨ofNat_digit_toNat _, rfl⟩

/-- An addition whose exact sum is 20 or more leaves CY and a result of at least 10. -/
theorem exec_sum_out_of_range {i : Instr} {s : State} {d : DataAddr} {t : Nat}
    (hbcd : s.bcd = true) (hexec : exec i s = .next (arithOutcome s d (sumOutcome s.bcd t)))
    (hlow : 20 ≤ t) (hhigh : t < 32) :
    ∃ v : Nibble, 10 ≤ v.toNat ∧ exec i s = .next (arithOutcome s d (true, v)) := by
  obtain ⟨v, hv, hrow⟩ := sumOutcome_out_of_range hlow hhigh
  exact ⟨v, hv, by rw [hexec, hbcd, hrow]⟩

/-- A subtraction whose exact difference is above 9 or below −10 leaves CY and a result of at least
10. -/
theorem exec_difference_out_of_range {i : Instr} {s : State} {d : DataAddr} {a b c : Nat}
    (hbcd : s.bcd = true)
    (hexec : exec i s = .next (arithOutcome s d (differenceOutcome s.bcd a b c)))
    (ha : a < 16) (hb : b + c < 17) (h : b + c + 10 ≤ a ∨ a + 10 < b + c) :
    ∃ v : Nibble, 10 ≤ v.toNat ∧ exec i s = .next (arithOutcome s d (true, v)) := by
  obtain ⟨v, hv, hrow⟩ := differenceOutcome_out_of_range ha hb h
  exact ⟨v, hv, by rw [hexec, hbcd, hrow]⟩

/-- Settles O18: in every form the exact result names a row of Table 5-2 outside the decimal
range. -/
theorem decimalOutOfRange : Obligations.DecimalOutOfRange := by
  unfold Obligations.DecimalOutOfRange
  intro i d a b s hready hbcd hform
  obtain ⟨haddRM, haddMI⟩ := addEffect
  obtain ⟨haddcRM, haddcMI⟩ := addcEffect
  obtain ⟨hsubRM, hsubMI⟩ := subEffect
  obtain ⟨hsubcRM, hsubcMI⟩ := subcEffect
  have hc : s.cy.toNat ≤ 1 := s.cy.toNat_le
  have hread (a : DataAddr) : (dataRead s a).toNat < 16 := (dataRead s a).isLt
  obtain ⟨r, m, rfl, rfl, hform⟩ | ⟨n4, rfl, hform⟩ := hform
  · have hm := hread m
    have hr : (reg s r).toNat < 16 := (reg s r).isLt
    obtain ⟨rfl, rfl, h⟩ | ⟨rfl, rfl, h⟩ | ⟨rfl, rfl, h⟩ | ⟨rfl, rfl, h⟩ := hform
    · exact exec_sum_out_of_range hbcd ((haddRM r m s).2 hready) h (by omega)
    · exact exec_sum_out_of_range hbcd ((haddcRM r m s).2 hready) (by omega) (by omega)
    · exact exec_difference_out_of_range hbcd ((hsubRM r m s).2 hready) hr (by omega) h
    · exact exec_difference_out_of_range hbcd ((hsubcRM r m s).2 hready) hr (by omega) h
  · have hd := hread d
    have hn : n4.toNat < 16 := n4.isLt
    obtain ⟨rfl, rfl, h⟩ | ⟨rfl, rfl, h⟩ | ⟨rfl, rfl, h⟩ | ⟨rfl, rfl, h⟩ := hform
    · exact exec_sum_out_of_range hbcd ((haddMI d n4 s).2 hready) h (by omega)
    · exact exec_sum_out_of_range hbcd ((haddcMI d n4 s).2 hready) (by omega) (by omega)
    · exact exec_difference_out_of_range hbcd ((hsubMI d n4 s).2 hready) hd (by omega) h
    · exact exec_difference_out_of_range hbcd ((hsubcMI d n4 s).2 hready) hd (by omega) h

/-! ### Compare mode -/

/-- An arithmetic instruction leaves the outcome of some (CY, result) pair at its destination. -/
theorem exec_arithmetic_next {i : Instr} {s t : State} (harith : isArithmetic i = true)
    (h : exec i s = .next t) : ∃ d o, destination i = some d ∧ t = arithOutcome s d o := by
  have hafter := afterOperands_of_exec_next h
  cases i with
  | addRM r m | addcRM r m | subRM r m | subcRM r m | addMI m n | addcMI m n | subMI m n
  | subcMI m n =>
    cases hafter
    exact ⟨_, _, rfl, advancePc_arithCommit ..⟩
  | _ => cases harith

/-- Settles O19: the outcome with CMP = 1 stores nothing, and Z keeps its old value or falls. -/
theorem accumulatingCompare : Obligations.AccumulatingCompare := by
  unfold Obligations.AccumulatingCompare
  intro i s t harith hcmp h
  obtain ⟨d, o, -, rfl⟩ := exec_arithmetic_next harith h
  rw [arithOutcome, if_pos hcmp]
  refine ⟨rfl, fun hz => ?_⟩
  obtain ⟨hz, -⟩ := Bool.and_eq_true_iff.mp hz
  exact hz

/-! ### The PSWORD as operand -/

/-- PSWORD read as a number (10_state.md R34). -/
theorem dataRead_psw_toNat (s : State) :
    (dataRead s 0x7F).toNat = 8 * s.cmp.toNat + 4 * s.cy.toNat + 2 * s.z.toNat := by
  have hbits : ∀ c y z, (nibbleOf c y z false).toNat = 8 * c.toNat + 4 * y.toNat + 2 * z.toNat := by
    decide
  exact hbits s.cmp s.cy s.z

/-- 7FH is mapped and always readable. -/
theorem operandsReady_psw {i : Instr} (hm : memOperand i = some 0x7F)
    (hreads : operandReads i = [0x7F]) (s : State) : operandsReady i s = true := by
  simp only [operandsReady, hm, hreads]
  rfl

theorem arithOutcome_psw (s : State) (o : Bool × Nibble) :
    (s.cmp = false → arithOutcome s 0x7F o = { s with
      cmp := o.2.getLsbD 3, cy := o.2.getLsbD 2, z := o.2.getLsbD 1,
      pc := s.pc + 1, cycles := s.cycles + 1 }) ∧
    (s.cmp = true → arithOutcome s 0x7F o = { s with
      cy := o.1, z := s.z && decide (o.2 = 0), pc := s.pc + 1, cycles := s.cycles + 1 }) := by
  refine ⟨fun hcmp => ?stored, fun hcmp => ?compared⟩
  case stored =>
    rw [arithOutcome, if_neg (by simp [hcmp])]
    rfl
  case compared => rw [arithOutcome, if_pos hcmp]

/-- Settles O20: the operand is the PSWORD as it stood, and the store into it comes last. -/
theorem arithmeticOnPsw : Obligations.ArithmeticOnPsw := by
  unfold Obligations.ArithmeticOnPsw
  intro i o n4 s psw hform
  obtain ⟨-, hadd⟩ := addEffect
  obtain ⟨-, haddc⟩ := addcEffect
  obtain ⟨-, hsub⟩ := subEffect
  obtain ⟨-, hsubc⟩ := subcEffect
  have hpsw : psw = (dataRead s 0x7F).toNat := (dataRead_psw_toNat s).symm
  have hexec : exec i s = .next (arithOutcome s 0x7F o) := by
    rw [hpsw] at hform
    obtain ⟨rfl, rfl⟩ | ⟨rfl, rfl⟩ | ⟨rfl, rfl⟩ | ⟨rfl, rfl⟩ := hform
    · exact (hadd 0x7F n4 s).2 (operandsReady_psw rfl rfl s)
    · exact (haddc 0x7F n4 s).2 (operandsReady_psw rfl rfl s)
    · exact (hsub 0x7F n4 s).2 (operandsReady_psw rfl rfl s)
    · exact (hsubc 0x7F n4 s).2 (operandsReady_psw rfl rfl s)
  rw [hexec]
  obtain ⟨hstored, hcompared⟩ := arithOutcome_psw s o
  exact ⟨fun hcmp => congrArg _ (hstored hcmp), fun hcmp => congrArg _ (hcompared hcmp)⟩

end Sys2Proof.Machine
end

