-- ==== Sys2Proof/Proofs/Frames.lean ====
section
/-! What an instruction leaves unchanged: what a data write can change of each field, then once what
any instruction can leave behind, then the frame of the memory, the flags and the special registers
(10_state.md R30–R39, 20_memory.md R60, R80). -/

namespace Sys2Proof.Machine

/-! ### The fields a data write leaves alone -/

theorem dataWrite_bcd_of_ne (s : State) {a : DataAddr} (v : Nibble) (h : a ≠ 0x7E) :
    (dataWrite s a v).bcd = s.bcd := by
  unfold dataWrite
  split
  case h_5 hl => exact absurd (eq_addr_of_locate hl nofun) h
  all_goals rfl

theorem dataWrite_flags_of_ne (s : State) {a : DataAddr} (v : Nibble) (h : a ≠ 0x7F) :
    (dataWrite s a v).cmp = s.cmp ∧ (dataWrite s a v).cy = s.cy ∧ (dataWrite s a v).z = s.z := by
  unfold dataWrite
  split
  case h_6 hl => exact absurd (eq_addr_of_locate hl nofun) h
  all_goals exact ⟨rfl, rfl, rfl⟩

theorem dataWrite_port0B_of_ne (s : State) {a : DataAddr} (v : Nibble) (h : a ≠ 0x71) :
    (dataWrite s a v).latch0B = s.latch0B ∧ (dataWrite s a v).out0B = s.out0B := by
  unfold dataWrite
  split
  case h_2 hl => exact absurd (eq_addr_of_locate hl nofun) h
  all_goals exact ⟨rfl, rfl⟩

theorem dataWrite_port0C_of_ne (s : State) {a : DataAddr} (v : Nibble) (h : a ≠ 0x72) :
    (dataWrite s a v).latch0C = s.latch0C ∧ (dataWrite s a v).out0C = s.out0C := by
  unfold dataWrite
  split
  case h_3 hl => exact absurd (eq_addr_of_locate hl nofun) h
  all_goals exact ⟨rfl, rfl⟩

theorem dataWrite_port0D_of_ne (s : State) {a : DataAddr} (v : Nibble) (h : a ≠ 0x73) :
    (dataWrite s a v).latch0D = s.latch0D ∧ (dataWrite s a v).out0D = s.out0D := by
  unfold dataWrite
  split
  case h_4 hl => exact absurd (eq_addr_of_locate hl nofun) h
  all_goals exact ⟨rfl, rfl⟩

/-- A write can only set a defined-bit, its own nibble's (70_reset_and_hazards.md R275). -/
theorem dataWrite_defined_of_ne {s : State} {a : DataAddr} {v : Nibble} {k : Fin 16}
    (h : (dataWrite s a v).defined[k] ≠ s.defined[k]) :
    (dataWrite s a v).defined[k] = true ∧ a = BitVec.ofNat 7 k := by
  obtain ⟨j, hl, hw⟩ | ⟨-, hw⟩ | ⟨-, hw⟩ | ⟨-, hw⟩ | ⟨-, hw⟩ | ⟨-, hw⟩ | ⟨-, hw⟩ :=
    dataWrite_cases s a v
  all_goals rw [hw] at h ⊢
  case inl =>
    have hjk : j = k := by
      by_contra hne
      exact h (Vector.getElem_set_ne j.isLt k.isLt fun e => hne (Fin.ext e))
    subst hjk
    exact ⟨Vector.getElem_set_self j.isLt, eq_addr_of_locate hl nofun⟩
  all_goals exact absurd rfl h

/-- A write can only set a port's output mode (10_state.md R38). -/
theorem dataWrite_out (s : State) (a : DataAddr) (v : Nibble) :
    (s.out0B = true → (dataWrite s a v).out0B = true) ∧
    (s.out0C = true → (dataWrite s a v).out0C = true) ∧
    (s.out0D = true → (dataWrite s a v).out0D = true) := by
  unfold dataWrite
  split
  all_goals exact ⟨by simp, by simp, by simp⟩

/-! ### What an instruction can leave -/

/-- The states an instruction `i` that answers at `s` can leave: a store to its destination; a
change of registers and flags that belong to it; or the initialised state of `STOP 0000B`. -/
inductive Leaves (i : Instr) (s : State) : State → Prop
  | stored {d : DataAddr} {v : Nibble} {cy z : Bool} (hd : destination i = some d)
      (hcy : cy = s.cy ∨ isArithmetic i = true ∨ ∃ r, i = .rorc r)
      (hz : z = s.z ∨ isArithmetic i = true) :
      Leaves i s (advancePc (dataWrite { s with cy := cy, z := z } d v))
  | registers {pc asr : ProgAddr} {depth : Fin 2} {cmp cy z : Bool} {mode : Mode} {cycles : Nat}
      (hasr : asr = s.asr ∨ ∃ a, i = .call a)
      (hdepth : depth = s.depth ∨ (∃ a, i = .call a) ∨ i = .ret ∨ i = .retsk)
      (hcmp : cmp = s.cmp ∨ isBitTest i)
      (hcy : cy = s.cy ∨ isArithmetic i = true) (hz : z = s.z ∨ isArithmetic i = true)
      (hmode : mode = s.mode ∨ ∃ c, i = .halt c ∨ i = .stop c) :
      Leaves i s { s with
        pc := pc, asr := asr, depth := depth, cmp := cmp, cy := cy, z := z, mode := mode,
        cycles := cycles }
  | stopped (hi : i = .stop 0) :
      Leaves i s { initialise (advancePc s) with mode := .stop false }

theorem leaves_of_arith {i : Instr} {op : ArithOp} {s t : State} {d : DataAddr} {a b : Nibble}
    {c : Bool} (harith : isArithmetic i = true) (hd : destination i = some d)
    (h : arith op s d a b c = .next t) : Leaves i s t := by
  cases h
  obtain ⟨-, hcommit⟩ | ⟨-, hcommit⟩ := arithCommit_cases s d (arithResult op s.bcd a b c)
  · rw [hcommit]
    exact .registers (.inl rfl) (.inl rfl) (.inl rfl) (.inr harith) (.inr harith) (.inl rfl)
  · rw [hcommit]
    exact .stored hd (.inr (.inl harith)) (.inr harith)

theorem leaves_of_storeResult {i : Instr} {s t : State} {d : DataAddr} {v : Nibble}
    (hd : destination i = some d) (h : storeResult s d v = .next t) : Leaves i s t := by
  cases h
  exact .stored hd (.inl rfl) (.inl rfl)

theorem leaves_of_skipIf {i : Instr} {s : State} {cmp : Bool} (cond : Bool)
    (hcmp : cmp = s.cmp ∨ isBitTest i) : Leaves i s (skipIf { s with cmp := cmp } cond) := by
  obtain ⟨-, hskip⟩ | ⟨-, hskip⟩ := skipIf_cases { s with cmp := cmp } cond
  all_goals
    rw [hskip]
    exact .registers (.inl rfl) (.inl rfl) hcmp (.inl rfl) (.inl rfl) (.inl rfl)

/-- HALT answers in one way, up to the mode (45_others.md R201). -/
theorem execHalt_next {cond : Nibble} {s t : State} (h : execHalt cond s = .next t) :
    ∃ mode, t = { advancePc s with mode := mode } := by
  unfold execHalt at h
  split at h
  · cases h
    exact ⟨_, rfl⟩
  · cases h

/-- Everything an instruction that answers can leave behind. -/
theorem exec_leaves {i : Instr} {s t : State} (h : exec i s = .next t) : Leaves i s t := by
  have hafter := afterOperands_of_exec_next h
  cases i with
  | addRM r m | addcRM r m | subRM r m | subcRM r m | addMI m n | addcMI m n | subMI m n
  | subcMI m n => exact leaves_of_arith rfl rfl hafter
  | orRM r m | andRM r m | xorRM r m | orMI m n | andMI m n | xorMI m n | ld r m | st m r
  | mov m n => exact leaves_of_storeResult rfl hafter
  | rorc r =>
    cases hafter
    exact .stored rfl (.inr (.inr ⟨r, rfl⟩)) (.inl rfl)
  | skt m n | skf m n =>
    cases hafter
    exact leaves_of_skipIf _ (.inr ⟨m, n, by simp⟩)
  | ske m n | skne m n | skge m n | sklt m n =>
    cases hafter
    exact leaves_of_skipIf _ (.inl rfl)
  | br addr =>
    obtain ⟨-, rfl⟩ := execBr_next hafter
    exact .registers (.inl rfl) (.inl rfl) (.inl rfl) (.inl rfl) (.inl rfl) (.inl rfl)
  | call addr =>
    obtain ⟨-, -, rfl⟩ := execCall_next hafter
    exact .registers (.inr ⟨addr, rfl⟩) (.inr (.inl ⟨addr, rfl⟩)) (.inl rfl) (.inl rfl) (.inl rfl)
      (.inl rfl)
  | ret =>
    obtain ⟨-, rfl⟩ := execRet_next hafter
    exact .registers (.inl rfl) (.inr (.inr (.inl rfl))) (.inl rfl) (.inl rfl) (.inl rfl) (.inl rfl)
  | retsk =>
    obtain ⟨-, rfl⟩ := execRetsk_next hafter
    exact .registers (.inl rfl) (.inr (.inr (.inr rfl))) (.inl rfl) (.inl rfl) (.inl rfl) (.inl rfl)
  | stop cond =>
    obtain ⟨rfl, rfl⟩ | ⟨rfl, rfl⟩ := execStop_next hafter
    · exact .stopped rfl
    · exact .registers (.inl rfl) (.inl rfl) (.inl rfl) (.inl rfl) (.inl rfl) (.inr ⟨1, .inr rfl⟩)
  | halt cond =>
    obtain ⟨mode, rfl⟩ := execHalt_next hafter
    exact .registers (.inl rfl) (.inl rfl) (.inl rfl) (.inl rfl) (.inl rfl) (.inr ⟨cond, .inl rfl⟩)
  | nop =>
    cases hafter
    exact .registers (.inl rfl) (.inl rfl) (.inl rfl) (.inl rfl) (.inl rfl) (.inl rfl)

/-! ### Frames -/

/-- No instruction touches program memory, the chip's parameters or the inputs. -/
theorem exec_fixed {i : Instr} {s t : State} (h : exec i s = .next t) :
    t.rom = s.rom ∧ t.chip = s.chip ∧ t.inputs = s.inputs ∧ t.ticks = s.ticks := by
  cases exec_leaves h with
  | stored => simp
  | registers | stopped => exact ⟨rfl, rfl, rfl, rfl⟩

/-- A read of `a` sees no instruction but STOP that does not store to `a`. -/
theorem exec_dataRead_of_ne {i : Instr} {s t : State} {a : DataAddr} (h : exec i s = .next t)
    (hstop : ∀ c, i ≠ .stop c) (ha : destination i ≠ some a) (hpsw : a ≠ 0x7F) :
    dataRead t a = dataRead s a := by
  cases exec_leaves h with
  | @stored d v cy z hd =>
    have had : a ≠ d := fun e => ha (e ▸ hd)
    calc dataRead (advancePc (dataWrite { s with cy := cy, z := z } d v)) a
        = dataRead (dataWrite { s with cy := cy, z := z } d v) a := rfl
      _ = dataRead { s with cy := cy, z := z } a := dataRead_dataWrite_of_ne _ v had
      _ = dataRead s a := dataRead_of_ne_psw s hpsw s.pc s.asr s.depth s.cmp cy z s.mode s.cycles
  | registers => exact dataRead_of_ne_psw s hpsw _ _ _ _ _ _ _ _
  | stopped hi => exact absurd hi (hstop 0)

/-- Settles O48: data memory by the destination, program memory as one list. -/
theorem memoryFrame : Obligations.MemoryFrame := by
  unfold Obligations.MemoryFrame
  refine fun i s t h hstop => ⟨fun a => exec_dataRead_of_ne h hstop, fun a => ?rom⟩
  case rom =>
    obtain ⟨hrom, -⟩ := exec_fixed h
    rw [hrom]

/-- Settles O49: by what the instruction leaves behind, each flag has one way to change besides a
store to its address. -/
theorem flagFrame : Obligations.FlagFrame := by
  unfold Obligations.FlagFrame
  intro i s t h hstop
  cases exec_leaves h with
  | @stored d v cy z hd hcy hz =>
    rw [hd]
    have hbcd : (dataWrite { s with cy := cy, z := z } d v).bcd ≠ s.bcd → some d = some 0x7E :=
      fun hne => congrArg some (by_contra fun hd' => hne (dataWrite_bcd_of_ne _ v hd'))
    by_cases hpsw : d = 0x7F
    · have hdest : some d = some 0x7F := congrArg some hpsw
      exact ⟨hbcd, fun _ => .inl hdest, fun _ => .inl hdest, fun _ => .inl hdest⟩
    · obtain ⟨hcmp', hcy', hz'⟩ := dataWrite_flags_of_ne { s with cy := cy, z := z } v hpsw
      exact ⟨hbcd, fun hne => absurd hcmp' hne, fun hne =>
        .inr (hcy.resolve_left fun e => hne (hcy'.trans e)),
        fun hne => .inr (hz.resolve_left fun e => hne (hz'.trans e))⟩
  | registers hasr hdepth hcmp hcy hz hmode =>
    exact ⟨fun hne => absurd rfl hne, fun hne => .inr (hcmp.resolve_left hne),
      fun hne => .inr (.inl (hcy.resolve_left hne)), fun hne => .inr (hz.resolve_left hne)⟩
  | stopped hi => exact absurd hi (hstop 0)

/-- Settles O50: by what the instruction leaves behind, each special register has one way to
change. -/
theorem specialRegisterFrame : Obligations.SpecialRegisterFrame := by
  unfold Obligations.SpecialRegisterFrame
  intro i s t h
  obtain ⟨hrom, hchip, hinputs, hticks⟩ := exec_fixed h
  cases exec_leaves h with
  | @stored d v cy z hd hcy hz =>
    rw [hd]
    refine ⟨fun hne => absurd ?asr hne, fun hne => absurd ?depth hne, fun hne => ?latch0B,
      fun hne => ?latch0C, fun hne => ?latch0D, fun hne => .inl ?out0B, fun hne => .inl ?out0C,
      fun hne => .inl ?out0D, fun k hne => ?defined, fun hne => absurd ?mode hne,
      hrom, hchip, hinputs, hticks⟩
    case asr | depth | mode => simp
    case defined =>
      obtain ⟨hset, hdk⟩ := dataWrite_defined_of_ne hne
      exact ⟨hset, congrArg some hdk⟩
    all_goals
      refine congrArg some (by_contra fun hd' => hne ?_)
    case latch0B => exact (dataWrite_port0B_of_ne _ v hd').1
    case latch0C => exact (dataWrite_port0C_of_ne _ v hd').1
    case latch0D => exact (dataWrite_port0D_of_ne _ v hd').1
    case out0B => exact (dataWrite_port0B_of_ne _ v hd').2
    case out0C => exact (dataWrite_port0C_of_ne _ v hd').2
    case out0D => exact (dataWrite_port0D_of_ne _ v hd').2
  | registers hasr hdepth hcmp hcy hz hmode =>
    refine ⟨fun hne => hasr.resolve_left hne, fun hne => ?depth, fun hne => absurd rfl hne,
      fun hne => absurd rfl hne, fun hne => absurd rfl hne, fun hne => absurd rfl hne,
      fun hne => absurd rfl hne, fun hne => absurd rfl hne, fun k hne => absurd rfl hne,
      fun hne => hmode.resolve_left hne, hrom, hchip, hinputs, hticks⟩
    obtain hcall | hret | hretsk := hdepth.resolve_left hne
    · exact .inl hcall
    · exact .inr (.inl hret)
    · exact .inr (.inr (.inl hretsk))
  | stopped hi =>
    exact ⟨fun hne => absurd rfl hne, fun _ => .inr (.inr (.inr ⟨0, hi⟩)),
      fun hne => absurd rfl hne, fun hne => absurd rfl hne, fun hne => absurd rfl hne, fun _ => .inr ⟨0, hi⟩,
      fun _ => .inr ⟨0, hi⟩, fun _ => .inr ⟨0, hi⟩, fun k hne => absurd rfl hne,
      fun _ => ⟨0, .inr hi⟩, hrom, hchip, hinputs, hticks⟩

end Sys2Proof.Machine
end

