-- ==== Sys2Proof/Proofs/Reset.lean ====
section
/-! The step, reset and a program at its end (70_reset_and_hazards.md R270–R272, R290;
60_exceptions.md R258; 92_eei_decisions.md D15). -/

namespace Sys2Proof.Machine

/-! ### A step that runs an instruction -/

theorem step_of_runs {s : State} {i : Instr} (h : Runs s i) : step s = endStep (exec i s) := by
  obtain ⟨hreset, hmode, hfetch⟩ := h
  simp only [step, hreset, hmode, hfetch, if_true]

/-- The instruction at the pc, from the word there. -/
theorem runs_of_programWord {s : State} {w : ProgWord} {i : Instr} (hreset : resetLevel s = true)
    (hmode : s.mode = .operating) (hw : programWord s.rom s.pc = some w) (hi : decode w = .ok i) :
    Runs s i := by
  refine ⟨hreset, hmode, ?_⟩
  simp only [fetchInstr, hw, hi]

/-- Settles O40: the fetch gives the instruction, whose outcome ends the step. -/
theorem stepRunsFetchedInstruction : Obligations.StepRunsFetchedInstruction := by
  unfold Obligations.StepRunsFetchedInstruction
  intro s w i hreset hmode hw hi
  rw [step_of_runs (runs_of_programWord hreset hmode hw hi)]
  refine ⟨fun t ht => ?next, fun f hf => ?fault⟩
  case next => rw [ht, endStep, nextSample]
  case fault => rw [hf, endStep]

/-! ### A loaded instruction -/

theorem instrWord_toNat (w : ProgWord) : instrWord 16 w.toNat = w := by
  rw [instrWord, Nat.mod_eq_of_lt w.isLt, BitVec.ofNat_toNat, BitVec.setWidth_eq]

/-- The loading helper leaves RESET high in the current sample. -/
theorem resetLevel_withFetchWord (s : State) (nbits w : Nat) :
    resetLevel (s.withFetchWord nbits w) = true := by
  cases hreset : resetLevel s with
  | true =>
    have hinputs : inputsOutOfReset s = s.inputs := if_pos hreset
    rw [← hreset]
    simp only [State.withFetchWord, hinputs]
    rfl
  | false =>
    have hinputs : inputsOutOfReset s = { currentSample s with reset := .high } :: s.inputs.tail :=
      if_neg (by simp [hreset])
    simp only [State.withFetchWord, hinputs]
    rfl

/-- Settles O41: the loaded word is the one at the pc, and it decodes to its instruction. -/
theorem placedInstructionRuns : Obligations.PlacedInstructionRuns := by
  unfold Obligations.PlacedInstructionRuns
  intro s i
  refine runs_of_programWord (resetLevel_withFetchWord s 16 _) rfl
    (programWord_storeProgramWord s.rom s.pc _) ?_
  rw [instrWord_toNat]
  exact decodeEncodeRoundTrip i

/-! ### Reset -/

/-- Settles O46: each value as `State.reset` writes it, the sixteen defined-bits one by one. -/
theorem resetStateValues : Obligations.ResetStateValues := by
  unfold Obligations.ResetStateValues
  exact ⟨rfl, rfl, rfl, rfl, rfl, rfl, rfl, rfl, rfl, rfl, by decide⟩

theorem initialised_initialise (s : State) : Initialised (initialise s) :=
  ⟨rfl, rfl, rfl, rfl, rfl, rfl, rfl, rfl, rfl⟩

theorem initialised_holdReset (s : State) : Initialised (holdReset s) := initialised_initialise s

/-- A step with RESET low is the reset logic alone (R290 line 1). -/
theorem step_of_reset_low {s : State} (h : resetLevel s = false) :
    step s = .next (nextSample (takeReset s)) := by
  rw [step, h, if_neg Bool.false_ne_true]

/-- A held reset ends with RESET high (R271). -/
theorem step_of_release {s : State} (h : resetLevel s = true) (hmode : s.mode = .resetHeld) :
    step s = .next (nextSample { s with mode := .operating }) := by
  simp only [step, h, hmode, if_true]

theorem takeReset_of_inStandby {s : State} (h : InStandby s) : takeReset s = holdReset s := by
  obtain ⟨x, hmode | hmode⟩ := h
  all_goals simp only [takeReset, hmode]

theorem takeReset_of_resetHeld {s : State} (h : s.mode = .resetHeld) : takeReset s = s := by
  simp only [takeReset, h]

/-- Settles O42: reset of kind (A) from operation, of kind (B) from standby, nothing while held. -/
theorem resetEntry : Obligations.ResetEntry := by
  unfold Obligations.ResetEntry
  refine fun s hreset => ⟨fun hnot => ⟨_, step_of_reset_low hreset, ?entry⟩, fun hheld => ?held⟩
  case held => rw [step_of_reset_low hreset, takeReset_of_resetHeld hheld, nextSample]
  case entry =>
    obtain ⟨hmode, htake⟩ | ⟨hstandby, htake⟩ | ⟨hheld, -⟩ := takeReset_cases s
    · rw [htake]
      refine ⟨initialised_holdReset (undefineData s), rfl, rfl, rfl, fun _ k => ?undefined,
        fun ⟨x, hx⟩ => ?_⟩
      case undefined => exact Vector.getElem_replicate k.isLt
      · rw [hmode] at hx
        simp at hx
    · rw [htake]
      refine ⟨initialised_holdReset s, rfl, rfl, rfl, fun hop => ?_,
        fun _ => ⟨rfl, rfl, rfl, rfl, rfl⟩⟩
      obtain ⟨x, hx | hx⟩ := hstandby
      all_goals
        rw [hop] at hx
        cases hx
    · exact absurd hheld hnot

/-- Settles O43: the release only sets the mode, and the pc of a held reset is 000H. -/
theorem resetRelease : Obligations.ResetRelease := by
  unfold Obligations.ResetRelease
  intro s hinv hreset hheld
  obtain ⟨-, hinit⟩ := hinv
  obtain ⟨hpc, -⟩ := hinit (.inl hheld)
  refine ⟨_, step_of_release hreset hheld, rfl, hpc, fun i hhigh hword => ?_⟩
  obtain ⟨w, hw, hi⟩ := Option.map_eq_some_iff.mp hword
  exact runs_of_programWord hhigh rfl (by rw [← hw]; exact congrArg _ hpc) hi

/-- Settles O45: STOP initialises, the reset out of Stop(0) retains data memory and latches, the
release only sets the mode. -/
theorem stopThenResetRestarts : Obligations.StopThenResetRestarts := by
  unfold Obligations.StopThenResetRestarts
  intro s hruns
  refine ⟨nextSample { initialise (advancePc s) with mode := .stop false }, ?stop, rfl,
    initialised_initialise (advancePc s), fun hlow => ?hold⟩
  case stop =>
    rw [step_of_runs hruns, exec_stop_zero]
    rfl
  case hold =>
    refine ⟨_, step_of_reset_low hlow, rfl, fun hhigh => ?release⟩
    exact ⟨_, step_of_release hhigh rfl, rfl, initialised_initialise (advancePc s), rfl, rfl, rfl,
      rfl, rfl⟩

/-! ### The end of a program -/

/-- With nothing driven and its pull-up, RESET reads high. -/
theorem resetLevel_of_silent {s : State} (hinputs : s.inputs = [])
    (hpull : s.chip.optReset = .pullUp) : resetLevel s = true := by
  refine undrivenLevel_of_hasPullUp (beq_iff_eq.mpr hpull) ?_
  rw [currentSample, hinputs]
  rfl

/-- The step at a BR to itself changes the counters only. -/
theorem step_atSelfBranch {s : State} (h : AtSelfBranch s) :
    step s = .next (nextSample { s with cycles := s.cycles + 1 }) := by
  obtain ⟨addr, hruns, hok, htarget⟩ := h
  rw [step_of_runs hruns, exec_br_of_ok hok, htarget]
  rfl

/-- Settles O47: after a step at a BR to itself the machine is at it again. -/
theorem selfBranchNeverFaults : Obligations.SelfBranchNeverFaults := by
  unfold Obligations.SelfBranchNeverFaults
  intro s hself hinputs hpull n
  induction n generalizing s with
  | zero => trivial
  | succ n ih =>
    refine ⟨_, step_atSelfBranch hself, ih _ ?_ ?_ hpull⟩
    · obtain ⟨addr, ⟨-, hmode, hfetch⟩, hok, htarget⟩ := hself
      have hsilent : (nextSample { s with cycles := s.cycles + 1 }).inputs = [] := by
        simp [hinputs]
      exact ⟨addr, ⟨resetLevel_of_silent hsilent hpull, hmode, hfetch⟩, hok, htarget⟩
    · simp [hinputs]

end Sys2Proof.Machine
end

