-- ==== Sys2Proof/Proofs/Invariant.lean ====
section
/-! What every step keeps: program and chip, the invariant, and the output mode of a port
(20_memory.md R80, 60_exceptions.md R257, R258, 10_state.md R38, R41). -/

namespace Sys2Proof.Machine

/-! ### Program and chip -/

theorem takeReset_fixed (s : State) :
    (takeReset s).rom = s.rom ∧ (takeReset s).chip = s.chip := by
  obtain ⟨-, htake⟩ | ⟨-, htake⟩ | ⟨-, htake⟩ := takeReset_cases s
  all_goals
    rw [htake]
    exact ⟨rfl, rfl⟩

theorem standbyStep_fixed (s : State) :
    (standbyStep s).rom = s.rom ∧ (standbyStep s).chip = s.chip := by
  obtain hstep | ⟨-, -, hstep⟩ | ⟨-, -, hstep⟩ := standbyStep_cases s
  all_goals
    rw [hstep]
    exact ⟨rfl, rfl⟩

/-- Settles O54: neither reset nor standby nor an instruction touches program memory or chip. -/
theorem programAndChipFixed : Obligations.ProgramAndChipFixed := by
  unfold Obligations.ProgramAndChipFixed
  intro s t h
  obtain ⟨-, rfl⟩ | ⟨-, -, rfl⟩ | ⟨-, -, rfl⟩ | ⟨i, u, -, hexec, rfl⟩ := step_cases h
  · exact takeReset_fixed s
  · exact ⟨rfl, rfl⟩
  · exact standbyStep_fixed s
  · obtain ⟨hrom, hchip, -⟩ := exec_fixed hexec
    exact ⟨hrom, hchip⟩

/-! ### The invariant -/

/-- The modes in which the machine stays initialised (R257). -/
def Resting (s : State) : Prop := s.mode = .resetHeld ∨ s.mode = .stop false

theorem not_resting_of_operating {s : State} (h : s.mode = .operating) : ¬ Resting s := by
  rw [Resting, h]
  exact nofun

/-- The mode after `HALT 0001B` or `STOP 0001B`. -/
theorem enterUnlessHigh_cases (s : State) (p : Pin) (m : Mode) :
    enterUnlessHigh s p m = s.mode ∨ enterUnlessHigh s p m = m := by
  cases hpin : pinLevel s p with
  | true => exact .inl (enterUnlessHigh_of_high hpin m)
  | false => exact .inr (enterUnlessHigh_of_low hpin m)

/-- HALT leaves the mode, or enters one of its own two. -/
theorem execHalt_mode {cond : Nibble} {s t : State} (h : execHalt cond s = .next t) :
    t.mode = s.mode ∨ ∃ x, t.mode = .halt x := by
  unfold execHalt at h
  split at h
  · cases h
    dsimp only
    split
    · exact (enterUnlessHigh_cases s .p0b0 (.halt true)).imp_right fun hm => ⟨true, hm⟩
    · exact .inr ⟨false, rfl⟩
  · cases h

/-- Of all instructions only `STOP 0000B` enters a resting mode, and it initialises. -/
theorem exec_initialised {i : Instr} {s t : State} (hs : s.mode = .operating)
    (h : exec i s = .next t) (ht : Resting t) : Initialised t := by
  obtain ⟨c, rfl | rfl⟩ | hmode := exec_mode h
  · obtain hmode | ⟨x, hmode⟩ := execHalt_mode h
    · exact absurd ht (not_resting_of_operating (hmode.trans hs))
    · rw [Resting, hmode] at ht
      simp at ht
  · obtain ⟨rfl, rfl⟩ | ⟨rfl, rfl⟩ := execStop_next h
    · exact initialised_initialise (advancePc s)
    · obtain hmode | hmode := enterUnlessHigh_cases s .p0b1 (.stop true)
      · exact absurd ht (not_resting_of_operating (hmode.trans hs))
      · simp [Resting, hmode] at ht
  · exact absurd ht (not_resting_of_operating (hmode.trans hs))

theorem takeReset_initialised {s : State} (hs : Resting s → Initialised s) :
    Initialised (takeReset s) := by
  obtain ⟨-, htake⟩ | ⟨-, htake⟩ | ⟨hheld, htake⟩ := takeReset_cases s
  all_goals rw [htake]
  · exact initialised_holdReset (undefineData s)
  · exact initialised_holdReset s
  · exact hs (.inl hheld)

theorem standbyStep_initialised {s : State} (hs : Resting s → Initialised s)
    (ht : Resting (standbyStep s)) : Initialised (standbyStep s) := by
  by_cases hhigh : ReleasePinHigh s
  · rw [standbyStep_of_releasePinHigh hhigh] at ht
    exact absurd ht (not_resting_of_operating rfl)
  · rw [standbyStep_of_not_releasePinHigh hhigh] at ht ⊢
    exact hs ht

/-- Settles O52: the program does not change, and each kind of step that ends in a resting mode
leaves the machine initialised. -/
theorem stepKeepsInvariant : Obligations.StepKeepsInvariant := by
  unfold Obligations.StepKeepsInvariant
  intro s t ⟨hwf, (hrest : Resting s → Initialised s)⟩ h
  obtain ⟨hrom, -⟩ := programAndChipFixed s t h
  refine ⟨hrom ▸ hwf, fun (ht : Resting t) => ?_⟩
  obtain ⟨-, rfl⟩ | ⟨-, -, rfl⟩ | ⟨-, -, rfl⟩ | ⟨i, u, ⟨-, hmode, -⟩, hexec, rfl⟩ := step_cases h
  · exact takeReset_initialised hrest
  · exact absurd ht (not_resting_of_operating rfl)
  · exact standbyStep_initialised hrest ht
  · have hu : Initialised u := exec_initialised hmode hexec ht
    exact hu

/-- Settles O53: reset lists no program word and leaves the machine operating. -/
theorem resetMeetsInvariant : Obligations.ResetMeetsInvariant := by
  unfold Obligations.ResetMeetsInvariant
  exact ⟨reset_rom_wf, fun h => absurd h (not_resting_of_operating rfl)⟩

/-! ### Output mode -/

/-- Every port in output mode at `s` is so at `t`. -/
def OutputsKept (s t : State) : Prop :=
  (s.out0B = true → t.out0B = true) ∧ (s.out0C = true → t.out0C = true) ∧
    (s.out0D = true → t.out0D = true)

/-- Every instruction but `STOP 0000B` keeps output mode. -/
theorem exec_outputsKept {i : Instr} {s t : State} (h : exec i s = .next t) (hi : i ≠ .stop 0) :
    OutputsKept s t := by
  cases exec_leaves h with
  | @stored d v cy z => exact dataWrite_out { s with cy := cy, z := z } d v
  | registers => exact ⟨id, id, id⟩
  | stopped hstop => exact absurd hstop hi

theorem standbyStep_outputsKept (s : State) : OutputsKept s (standbyStep s) := by
  obtain hstep | ⟨-, -, hstep⟩ | ⟨-, -, hstep⟩ := standbyStep_cases s
  all_goals
    rw [hstep]
    exact ⟨id, id, id⟩

theorem step_outputsKept {s t : State} (h : step s = .next t) :
    resetLevel s = false ∨ Runs s (.stop 0) ∨ OutputsKept s t := by
  obtain ⟨hlow, -⟩ | ⟨-, -, rfl⟩ | ⟨-, -, rfl⟩ | ⟨i, u, hruns, hexec, rfl⟩ := step_cases h
  · exact .inl hlow
  · exact .inr (.inr ⟨id, id, id⟩)
  · exact .inr (.inr (standbyStep_outputsKept s))
  · by_cases hi : i = .stop 0
    · exact .inr (.inl (hi ▸ hruns))
    · have hkept : OutputsKept s u := exec_outputsKept hexec hi
      exact .inr (.inr hkept)

/-- Settles O56: a step without a low RESET and without `STOP 0000B` keeps output mode. -/
theorem outputModeLeftOnlyByReset : Obligations.OutputModeLeftOnlyByReset := by
  unfold Obligations.OutputModeLeftOnlyByReset
  intro s t h hleft
  obtain hlow | hstop | ⟨h0B, h0C, h0D⟩ := step_outputsKept h
  · exact .inl hlow
  · exact .inr hstop
  · obtain ⟨hs, ht⟩ | ⟨hs, ht⟩ | ⟨hs, ht⟩ := hleft
    · exact absurd (h0B hs) (by simp [ht])
    · exact absurd (h0C hs) (by simp [ht])
    · exact absurd (h0D hs) (by simp [ht])

end Sys2Proof.Machine
end

