-- ==== Sys2Proof/Proofs/Noninterference.lean ====
section
/-! What no instruction can see (10_state.md R45, 20_memory.md R60): a change of the state that
keeps every observation and commutes with every operation of the model commutes with every instruction.
Program memory and the latch of a port in input mode are such. -/

namespace Sys2Proof.Machine

/-! ### The operations an instruction is made of -/

/-- `s` with new CY and Z. -/
def flagged (s : State) (cy z : Bool) : State := { s with cy := cy, z := z }

/-- `s` with CMP reset (42_test_compare.md R161, R162). -/
def cmpReset (s : State) : State := { s with cmp := false }

/-- `s` with the return address of a CALL on the stack (44_branch_subroutine.md R192). -/
def pushed (s : State) : State := { s with asr := s.pc + 1, depth := 1 }

/-- `s` with an empty stack (R193). -/
def emptied (s : State) : State := { s with depth := 0 }

/-- `s` in another run mode. -/
def inMode (s : State) (mode : Mode) : State := { s with mode := mode }

theorem arithCommit_eq (s : State) (d : DataAddr) (o : Bool × Nibble) :
    arithCommit s d o = if s.cmp then flagged s o.1 (arithZ s o.2)
      else dataWrite (flagged s o.1 (arithZ s o.2)) d o.2 := rfl

theorem afterOperands_skt (m : DataAddr) (n : Nibble) (s : State) :
    afterOperands (.skt m n) s = .next (skipIf (cmpReset s) (testOperand s m &&& n == n)) := rfl

theorem afterOperands_skf (m : DataAddr) (n : Nibble) (s : State) :
    afterOperands (.skf m n) s = .next (skipIf (cmpReset s) (testOperand s m &&& n == 0)) := rfl

theorem afterOperands_rorc (r : RegNum) (s : State) :
    afterOperands (.rorc r) s = storeResult (flagged s ((reg s r).getLsbD 0) s.z) (regAddr r)
      (rotatedRight (reg s r) s.cy) := rfl

theorem execCall_eq (addr : BitVec 11) (s : State) :
    execCall addr s = if branchOperandOk addr then
      if s.depth = 1 then .fault (.stackOverflow s.pc)
      else .next (jumpTo (pushed s) (branchTarget addr))
    else .fault (.badBranchOperand s.pc (encode (.call addr))) := rfl

theorem execRet_eq (s : State) :
    execRet s = if s.depth = 0 then .fault (.stackUnderflow s.pc)
      else .next (jumpTo (emptied s) s.asr) := rfl

theorem execRetsk_eq (s : State) :
    execRetsk s = if s.depth = 0 then .fault (.stackUnderflow s.pc)
      else .next (advancePc (jumpTo (emptied s) s.asr)) := rfl

theorem execHalt_eq (cond : Nibble) (s : State) :
    execHalt cond s = if standbyOperandOk cond then
      .next (inMode (advancePc s)
        (if releaseBit cond then enterUnlessHigh s .p0b0 (.halt true) else .halt false))
    else .fault (.badStandbyOperand s.pc (encode (.halt cond))) := rfl

theorem execStop_eq (cond : Nibble) (s : State) :
    execStop cond s = if standbyOperandOk cond then
      .next (if releaseBit cond then
          inMode (advancePc s) (enterUnlessHigh s .p0b1 (.stop true))
        else inMode (initialise (advancePc s)) (.stop false))
    else .fault (.badStandbyOperand s.pc (encode (.stop cond))) := rfl

/-! ### Changes that no instruction sees -/

/-- `f` on the next state; a fault or a refusal is passed on. -/
def mapNext (f : State → State) (r : Result) : Result :=
  match r with
  | .next s => .next (f s)
  | .fault g => .fault g
  | .refused g => .refused g

/-- `f` changes nothing that an instruction observes, and nothing that the operations it is made of
bring to light. -/
structure Unseen (f : State → State) : Prop where
  idem (s : State) : f (f s) = f s
  pc (s : State) : (f s).pc = s.pc
  asr (s : State) : (f s).asr = s.asr
  depth (s : State) : (f s).depth = s.depth
  bcd (s : State) : (f s).bcd = s.bcd
  cmp (s : State) : (f s).cmp = s.cmp
  cy (s : State) : (f s).cy = s.cy
  z (s : State) : (f s).z = s.z
  mode (s : State) : (f s).mode = s.mode
  chip (s : State) : (f s).chip = s.chip
  defined (s : State) : (f s).defined = s.defined
  pinLevel (s : State) (p : Pin) : pinLevel (f s) p = pinLevel s p
  dataRead (s : State) (a : DataAddr) : dataRead (f s) a = dataRead s a
  dataWrite (s : State) (a : DataAddr) (v : Nibble) : f (dataWrite s a v) = dataWrite (f s) a v
  advancePc (s : State) : f (advancePc s) = advancePc (f s)
  jumpTo (s : State) (a : ProgAddr) : f (jumpTo s a) = jumpTo (f s) a
  flagged (s : State) (cy z : Bool) : f (flagged s cy z) = flagged (f s) cy z
  cmpReset (s : State) : f (cmpReset s) = cmpReset (f s)
  pushed (s : State) : f (pushed s) = pushed (f s)
  emptied (s : State) : f (emptied s) = emptied (f s)
  inMode (s : State) (mode : Mode) : f (inMode s mode) = inMode (f s) mode
  initialise (s : State) : f (initialise (f s)) = f (initialise s)

section
variable {f : State → State}

theorem Unseen.accessible (hf : Unseen f) (s : State) (a : DataAddr) :
    accessible (f s) a = accessible s a := by
  simp only [Machine.accessible, hf.chip]

theorem Unseen.readable (hf : Unseen f) (s : State) (a : DataAddr) :
    readable (f s) a = readable s a := by
  simp only [Machine.readable, hf.chip, hf.defined]

theorem Unseen.dataFault (hf : Unseen f) (s : State) (m : Option DataAddr)
    (reads : List DataAddr) : dataFault (f s) m reads = dataFault s m reads := by
  simp only [Machine.dataFault, hf.accessible, hf.readable, hf.pc]

theorem Unseen.reg (hf : Unseen f) (s : State) (r : RegNum) : reg (f s) r = reg s r := by
  rw [← dataRead_regAddr, hf.dataRead, dataRead_regAddr]

theorem Unseen.testOperand (hf : Unseen f) (s : State) (m : DataAddr) :
    testOperand (f s) m = testOperand s m := by
  rw [testOperand_eq, testOperand_eq, hf.chip, hf.dataRead]

theorem Unseen.skipIf (hf : Unseen f) (s : State) (cond : Bool) :
    f (skipIf s cond) = skipIf (f s) cond := by
  cases cond with
  | false => exact hf.advancePc s
  | true => exact (hf.advancePc _).trans (congrArg Machine.advancePc (hf.advancePc s))

theorem Unseen.enterUnlessHigh (hf : Unseen f) (s : State) (p : Pin) (m : Mode) :
    enterUnlessHigh (f s) p m = enterUnlessHigh s p m := by
  simp only [Machine.enterUnlessHigh, hf.pinLevel, hf.mode]

theorem Unseen.arithCommit (hf : Unseen f) (s : State) (d : DataAddr) (o : Bool × Nibble) :
    f (arithCommit s d o) = arithCommit (f s) d o := by
  have hz : arithZ (f s) o.2 = arithZ s o.2 := by simp only [arithZ, hf.cmp, hf.z]
  rw [arithCommit_eq, arithCommit_eq, hf.cmp, hz]
  split
  · exact hf.flagged s _ _
  · rw [hf.dataWrite, hf.flagged]

theorem Unseen.arith (hf : Unseen f) (op : ArithOp) (s : State) (d : DataAddr) (a b : Nibble)
    (c : Bool) : arith op (f s) d a b c = mapNext f (arith op s d a b c) := by
  rw [Machine.arith, Machine.arith, mapNext, hf.advancePc, hf.arithCommit, hf.bcd]

theorem Unseen.storeResult (hf : Unseen f) (s : State) (d : DataAddr) (v : Nibble) :
    storeResult (f s) d v = mapNext f (storeResult s d v) := by
  rw [Machine.storeResult, Machine.storeResult, mapNext, hf.advancePc, hf.dataWrite]

theorem Unseen.mapNext_mapNext (hf : Unseen f) (r : Result) :
    mapNext f (mapNext f r) = mapNext f r := by
  cases r with
  | next s => exact congrArg Host.Outcome.next (hf.idem s)
  | fault g | refused g => rfl

/-- What an instruction does with its operands does not depend on what `f` changes. -/
theorem Unseen.afterOperands (hf : Unseen f) (i : Instr) (s : State) :
    mapNext f (afterOperands i (f s)) = mapNext f (afterOperands i s) := by
  cases i with
  | addRM r m | addcRM r m | subRM r m | subcRM r m | addMI m n | addcMI m n | subMI m n
  | subcMI m n =>
    simp only [Machine.afterOperands, hf.reg, hf.dataRead, hf.cy, hf.arith, hf.mapNext_mapNext]
  | orRM r m | andRM r m | xorRM r m | orMI m n | andMI m n | xorMI m n | ld r m | st m r
  | mov m n =>
    simp only [Machine.afterOperands, hf.reg, hf.dataRead, hf.storeResult, hf.mapNext_mapNext]
  | rorc r =>
    simp only [afterOperands_rorc, hf.reg, hf.cy, hf.z, ← hf.flagged, hf.storeResult,
      hf.mapNext_mapNext]
  | skt m n | skf m n =>
    simp only [afterOperands_skt, afterOperands_skf, hf.testOperand, mapNext, ← hf.cmpReset,
      ← hf.skipIf, hf.idem]
  | ske m n | skne m n | skge m n | sklt m n =>
    simp only [Machine.afterOperands, hf.dataRead, mapNext, ← hf.skipIf, hf.idem]
  | br addr =>
    simp only [Machine.afterOperands, execBr, hf.pc, ← hf.jumpTo]
    split
    · simp only [mapNext, hf.idem]
    · rfl
  | call addr =>
    simp only [Machine.afterOperands, execCall_eq, hf.pc, hf.depth, ← hf.pushed, ← hf.jumpTo]
    split
    · split
      · rfl
      · simp only [mapNext, hf.idem]
    · rfl
  | ret =>
    simp only [Machine.afterOperands, execRet_eq, hf.pc, hf.depth, hf.asr, ← hf.emptied,
      ← hf.jumpTo]
    split
    · rfl
    · simp only [mapNext, hf.idem]
  | retsk =>
    simp only [Machine.afterOperands, execRetsk_eq, hf.pc, hf.depth, hf.asr, ← hf.emptied,
      ← hf.jumpTo, ← hf.advancePc]
    split
    · rfl
    · simp only [mapNext, hf.idem]
  | stop cond =>
    simp only [Machine.afterOperands, execStop_eq, hf.pc, hf.enterUnlessHigh, ← hf.advancePc]
    split
    · split
      · simp only [mapNext, hf.inMode, hf.idem]
      · simp only [mapNext, hf.inMode, hf.initialise]
    · rfl
  | halt cond =>
    simp only [Machine.afterOperands, execHalt_eq, hf.pc, hf.enterUnlessHigh, ← hf.advancePc]
    split
    · simp only [mapNext, hf.inMode, hf.idem]
    · rfl
  | nop => simp only [Machine.afterOperands, mapNext, ← hf.advancePc, hf.idem]

/-- No instruction sees what `f` changes: it faults alike, and the states it leaves differ in that
alone. -/
theorem Unseen.exec (hf : Unseen f) (i : Instr) (s : State) :
    mapNext f (exec i (f s)) = mapNext f (exec i s) := by
  rw [exec_eq, exec_eq, hf.dataFault]
  cases Machine.dataFault s (memOperand i) (operandReads i) with
  | none => exact hf.afterOperands i s
  | some g => rfl

end

/-! ### Program memory -/

/-- `s` with another program. -/
def withRom (rom : Memory) (s : State) : State := { s with rom := rom }

theorem withRom_of_rom {rom : Memory} {s : State} (h : s.rom = rom) : withRom rom s = s := by
  subst h
  rfl

theorem unseen_withRom (rom : Memory) : Unseen (withRom rom) where
  idem _ := rfl
  pc _ := rfl
  asr _ := rfl
  depth _ := rfl
  bcd _ := rfl
  cmp _ := rfl
  cy _ := rfl
  z _ := rfl
  mode _ := rfl
  chip _ := rfl
  defined _ := rfl
  pinLevel _ _ := rfl
  dataRead _ _ := rfl
  dataWrite s a v := by
    unfold dataWrite
    split <;> rfl
  advancePc _ := rfl
  jumpTo _ _ := rfl
  flagged _ _ _ := rfl
  cmpReset _ := rfl
  pushed _ := rfl
  emptied _ := rfl
  inMode _ _ := rfl
  initialise _ := rfl

/-- Under another program an instruction answers the same, up to the program. -/
theorem exec_withRom (i : Instr) (s : State) (rom : Memory) :
    exec i (withRom rom s) = mapNext (withRom rom) (exec i s) := by
  rw [← (unseen_withRom rom).exec i s]
  cases hu : exec i (withRom rom s) with
  | next u =>
    obtain ⟨hrom, -⟩ := exec_fixed hu
    exact congrArg Host.Outcome.next (withRom_of_rom hrom).symm
  | fault g | refused g => rfl

/-- Settles O55: no instruction sees the program, and none changes it. -/
theorem programMemoryIsNotData : Obligations.ProgramMemoryIsNotData := by
  unfold Obligations.ProgramMemoryIsNotData
  refine fun i s rom => ⟨fun t ht => ?next, fun g hg => ?fault⟩
  case next => exact (exec_withRom i s rom).trans (congrArg (mapNext (withRom rom)) ht)
  case fault => exact (exec_withRom i s rom).trans (congrArg (mapNext (withRom rom)) hg)

/-! ### Latches of ports in input mode -/

theorem chipDrive_hideLatches (s : State) (p : Pin) :
    chipDrive (hideLatches s) p = chipDrive s p := by
  cases p with
  | p0b0 | p0b1 | p0b2 =>
    simp only [chipDrive, hideLatches]
    cases s.out0B <;> rfl
  | p0c0 | p0c1 | p0c2 | p0c3 =>
    simp only [chipDrive, hideLatches]
    cases s.out0C <;> rfl
  | p0d0 | p0d1 | p0d2 | p0d3 =>
    simp only [chipDrive, hideLatches]
    cases s.out0D <;> rfl
  | reset => rfl

theorem pinLevel_hideLatches (s : State) (p : Pin) :
    pinLevel (hideLatches s) p = pinLevel s p := by
  simp only [pinLevel, chipDrive_hideLatches]
  rfl

theorem hideLatches_idem (s : State) : hideLatches (hideLatches s) = hideLatches s := by
  cases h0B : s.out0B <;> cases h0C : s.out0C <;> cases h0D : s.out0D <;>
    simp [hideLatches, h0B, h0C, h0D]

theorem unseen_hideLatches : Unseen hideLatches where
  idem := hideLatches_idem
  pc _ := rfl
  asr _ := rfl
  depth _ := rfl
  bcd _ := rfl
  cmp _ := rfl
  cy _ := rfl
  z _ := rfl
  mode _ := rfl
  chip _ := rfl
  defined _ := rfl
  pinLevel := pinLevel_hideLatches
  dataRead s a := by
    simp only [dataRead, pinLevel_hideLatches]
    rfl
  dataWrite s a v := by
    unfold dataWrite
    split <;> rfl
  advancePc _ := rfl
  jumpTo _ _ := rfl
  flagged _ _ _ := rfl
  cmpReset _ := rfl
  pushed _ := rfl
  emptied _ := rfl
  inMode _ _ := rfl
  initialise _ := rfl

theorem hideOutcome_eq_mapNext (r : Result) : hideOutcome r = mapNext hideLatches r := by
  cases r <;> rfl

/-- The end of a step looks at no latch. -/
theorem hideOutcome_endStep (r : Result) : hideOutcome (endStep r) = endStep (hideOutcome r) := by
  cases r <;> rfl

theorem takeReset_hideLatches (s : State) :
    hideLatches (takeReset (hideLatches s)) = hideLatches (takeReset s) := by
  have hmode : (hideLatches s).mode = s.mode := rfl
  obtain ⟨hop, htake⟩ | ⟨hstandby, htake⟩ | ⟨hheld, htake⟩ := takeReset_cases s
  all_goals rw [htake]
  · simp only [takeReset, hmode, hop]
    rfl
  · rw [takeReset_of_inStandby (s := hideLatches s) hstandby]
    rfl
  · rw [takeReset_of_resetHeld (s := hideLatches s) hheld, hideLatches_idem]

/-- The standby logic looks at pins, never at a latch. -/
theorem standbyStep_hideLatches (s : State) :
    standbyStep (hideLatches s) = hideLatches (standbyStep s) := by
  have hiff : ReleasePinHigh (hideLatches s) ↔ ReleasePinHigh s := by
    simp only [ReleasePinHigh, pinLevel_hideLatches]
    rfl
  by_cases hhigh : ReleasePinHigh s
  · rw [standbyStep_of_releasePinHigh hhigh, standbyStep_of_releasePinHigh (hiff.mpr hhigh)]
    rfl
  · rw [standbyStep_of_not_releasePinHigh hhigh,
      standbyStep_of_not_releasePinHigh (hiff.not.mpr hhigh)]

/-- The end of a step brings no latch to light. -/
theorem hideOutcome_nextSample {s t : State} (h : hideLatches s = hideLatches t) :
    hideOutcome (.next (nextSample s)) = hideOutcome (.next (nextSample t)) :=
  congrArg (fun u => Host.Outcome.next (nextSample u)) h

theorem Runs.hideLatches {s : State} {i : Instr} (h : Runs s i) : Runs (hideLatches s) i := h

/-- No step sees the latch of a port in input mode. -/
theorem step_hideLatches (s : State) :
    hideOutcome (step (hideLatches s)) = hideOutcome (step s) := by
  have hlevel : resetLevel (hideLatches s) = resetLevel s := rfl
  have hfetch : fetchInstr (hideLatches s) = fetchInstr s := rfl
  cases hreset : resetLevel s with
  | false =>
    rw [step_of_reset_low hreset, step_of_reset_low (hlevel.trans hreset)]
    exact hideOutcome_nextSample (takeReset_hideLatches s)
  | true =>
    by_cases hstandby : InStandby s
    · rw [step_of_inStandby hreset hstandby,
        step_of_inStandby (s := hideLatches s) (hlevel.trans hreset) hstandby,
        standbyStep_hideLatches]
      exact hideOutcome_nextSample (hideLatches_idem (standbyStep s))
    · cases hmode : s.mode with
      | halt x => exact absurd ⟨x, .inl hmode⟩ hstandby
      | stop x => exact absurd ⟨x, .inr hmode⟩ hstandby
      | resetHeld =>
        rw [step_of_release hreset hmode,
          step_of_release (s := hideLatches s) (hlevel.trans hreset) hmode]
        exact hideOutcome_nextSample (hideLatches_idem { s with mode := .operating })
      | operating =>
        cases hf : fetchInstr s with
        | ok i =>
          have hruns : Runs s i := ⟨hreset, hmode, hf⟩
          rw [step_of_runs hruns, step_of_runs hruns.hideLatches, hideOutcome_endStep,
            hideOutcome_endStep, hideOutcome_eq_mapNext, hideOutcome_eq_mapNext,
            unseen_hideLatches.exec]
        | error g =>
          rw [step_of_fetch_error hreset hmode hf, step_of_fetch_error (s := hideLatches s)
            (hlevel.trans hreset) hmode (hfetch.trans hf)]

/-- Settles O58: each of the two steps is that of the common state with its latches hidden. -/
theorem inputModeLatchUnobservable : Obligations.InputModeLatchUnobservable := by
  unfold Obligations.InputModeLatchUnobservable
  intro s t h
  rw [← step_hideLatches s, h, step_hideLatches t]

end Sys2Proof.Machine
end
